-- ==== Sys2Proof/Word.lean ====
section
/-! DEFINITION. The machine word (spec/00_scope.md R11): a Word is a mathematical integer, `Int` in Lean, and WORD_BITS
says which integers are Words of one instance.  The machine never computes with bit patterns. -/

namespace Sys2Proof

/-- WORD_BITS: an integer, or UNBOUNDED (00_scope.md R8). -/
inductive WordBits where
  | bounded (n : Nat)
  | unbounded
  deriving DecidableEq, Repr

/-- The largest Word of a bounded width: `2^(n-1) - 1`. -/
def WordBits.maxOf (n : Nat) : Int := 2 ^ (n - 1) - 1

/-- The smallest Word of a bounded width: `-2^(n-1)`. -/
def WordBits.minOf (n : Nat) : Int := -2 ^ (n - 1)

/-- `InRange(v)`: v is a Word of this width (00_scope.md R11). -/
def WordBits.inRange (b : WordBits) (v : Int) : Bool :=
  match b with
  | .unbounded => true
  | .bounded n => decide (WordBits.minOf n ≤ v) && decide (v ≤ WordBits.maxOf n)

end Sys2Proof
end

