-- ==== Sys2Proof/Config.lean ====
section
/-! DEFINITION. The implementation parameters of one instance that stay OPEN in the spec: WORD_BITS and CAPACITY
(spec/00_scope.md R8, R9).  They are plain data carried by the state and no step writes them, so a statement
about every state is a statement about every admissible parameter (log 2).  No rule leaves a result open after
which the machine goes on, so there is no free value here. -/

namespace Sys2Proof

/-- The parameters of one instance that construction fixes for good. -/
structure Config where
  /-- `WORD_BITS` -/
  wordBits : WordBits
  /-- `CAPACITY`, the number of memory cells -/
  capacity : Nat
  deriving DecidableEq, Repr

/-- The constraints on WORD_BITS and CAPACITY together: WORD_BITS is at least 64 or UNBOUNDED (00_scope.md R8),
`CAPACITY ≥ 1` (R9 (a)), and for a bounded width `CAPACITY + 3 ≤ 2^(WORD_BITS-1) - 1` (R9 (c)).  That a bounded
width below 64 is refused at construction is the model's reading of R8 (DESIGN CHOICE, log 27). -/
def Config.valid (c : Config) : Bool :=
  decide (1 ≤ c.capacity) &&
  match c.wordBits with
  | .unbounded => true
  | .bounded n => decide (64 ≤ n) && decide ((c.capacity : Int) + 3 ≤ WordBits.maxOf n)

/-- The parameters of `State.reset`.  DESIGN CHOICE (log 2): UNBOUNDED, as the spec's own vectors take it
(95_test_vectors.md section 0), and 65536 cells, for which the spec gives no number (91_not_in_source.md N9). -/
def Config.default : Config := { wordBits := .unbounded, capacity := 65536 }

end Sys2Proof
end

