-- ==== Sys2Proof/Syntax.lean ====
section
/-! DEFINITION. Instructions as syntax: the ten rows of spec/opcode_table.json (spec/30_encoding.md R93), each with
its parameters. -/

namespace Sys2Proof

/-- The addressing modes (30_encoding.md R95). -/
inductive Mode where
  | position
  | immediate
  | relative
  deriving DecidableEq, Repr

/-- A parameter: its addressing mode and its raw operand word (00_scope.md R15, 30_encoding.md R90, R98). -/
structure Param where
  mode : Mode
  raw  : Int
  deriving DecidableEq, Repr

/-- The opcode categories (00_scope.md R15), in the order of the source's table (30_encoding.md R93). -/
inductive Opcode where
  | add
  | mul
  | inp
  | out
  | jnz
  | jz
  | lt
  | eq
  | rb
  | halt
  deriving DecidableEq, Repr

/-- One instruction: its opcode and its parameters p0, p1, p2 in order (30_encoding.md R90, R93).  `inp` is the
table's IN, whose name is a keyword of Lean. -/
inductive Instr where
  | add  (p0 p1 p2 : Param)
  | mul  (p0 p1 p2 : Param)
  | inp  (p0 : Param)
  | out  (p0 : Param)
  | jnz  (p0 p1 : Param)
  | jz   (p0 p1 : Param)
  | lt   (p0 p1 p2 : Param)
  | eq   (p0 p1 p2 : Param)
  | rb   (p0 : Param)
  | halt
  deriving DecidableEq, Repr

/-- The opcode category of an instruction. -/
def Instr.opcode : Instr → Opcode
  | .add _ _ _ => .add
  | .mul _ _ _ => .mul
  | .inp _     => .inp
  | .out _     => .out
  | .jnz _ _   => .jnz
  | .jz _ _    => .jz
  | .lt _ _ _  => .lt
  | .eq _ _ _  => .eq
  | .rb _      => .rb
  | .halt      => .halt

/-- The parameters of an instruction, in order. -/
def Instr.params : Instr → List Param
  | .add p0 p1 p2 => [p0, p1, p2]
  | .mul p0 p1 p2 => [p0, p1, p2]
  | .inp p0       => [p0]
  | .out p0       => [p0]
  | .jnz p0 p1    => [p0, p1]
  | .jz p0 p1     => [p0, p1]
  | .lt p0 p1 p2  => [p0, p1, p2]
  | .eq p0 p1 p2  => [p0, p1, p2]
  | .rb p0        => [p0]
  | .halt         => []

end Sys2Proof
end

