-- ==== Sys2Proof/WellFormed.lean ====
section
/-! DEFINITION. What an instruction must meet to be one that memory of a given width can hold.  Addressing modes are
an inductive type, so a bad mode digit is no term; what is left to check is that every operand word is a Word of
the instance (spec/00_scope.md R11, spec/30_encoding.md R98). -/

namespace Sys2Proof

/-- A parameter is well-formed when its raw operand is a Word of this width (00_scope.md R11). -/
def Param.wf (b : WordBits) (p : Param) : Bool := b.inRange p.raw

/-- An instruction is well-formed when every parameter is.  No operand word is illegal in itself (30_encoding.md
R98), and the decoder does not enforce the roles of parameters (R100), so nothing else is checked. -/
def Instr.wf (b : WordBits) (i : Instr) : Bool := i.params.all (Param.wf b)

/-- The opcodes that write a memory cell (40_operand_addressing.md R127). -/
def Opcode.writes : Opcode → Bool
  | .add | .mul | .inp | .lt | .eq => true
  | .out | .jnz | .jz | .rb | .halt => false

/-- The source's notion of an instruction of a well-formed PROGRAM: a writing opcode whose final parameter is not
IMMEDIATE (30_encoding.md R100, 70_reset_and_hazards.md R268).  The decoder does not check it. -/
def Instr.finalParamAddresses (i : Instr) : Bool :=
  !i.opcode.writes || (match i.params.getLast? with
    | some p => p.mode != .immediate
    | none => false)

end Sys2Proof
end

