-- ==== Sys2Proof/Decode.lean ====
section
/-! DEFINITION. From words to instructions and back (spec/30_encoding.md).  The fields of an opcode word are decimal
digits (R91).  The decoder is total on any list of words and rejects by name; the encoder after it is written
from the same tables. -/

namespace Sys2Proof

/-! ### The tables -/

/-- The opcode map (30_encoding.md R93).  PRESUMED for 3 to 9: the spec takes those values from general knowledge
(R94, 92_eei_decisions.md D5; log 12); 1, 2 and 99 are recovered from the source's example. -/
def Opcode.value : Opcode → Nat
  | .add  => 1
  | .mul  => 2
  | .inp  => 3
  | .out  => 4
  | .jnz  => 5
  | .jz   => 6
  | .lt   => 7
  | .eq   => 8
  | .rb   => 9
  | .halt => 99

/-- The same map read from the number (30_encoding.md R93, R97). -/
def Opcode.ofValue : Nat → Option Opcode
  | 1 => some .add
  | 2 => some .mul
  | 3 => some .inp
  | 4 => some .out
  | 5 => some .jnz
  | 6 => some .jz
  | 7 => some .lt
  | 8 => some .eq
  | 9 => some .rb
  | 99 => some .halt
  | _ => none

/-- The length L in words, opcode word included (30_encoding.md R93). -/
def Opcode.length : Opcode → Nat
  | .add | .mul | .lt | .eq => 4
  | .jnz | .jz => 3
  | .inp | .out | .rb => 2
  | .halt => 1

/-- The number of parameters, `n = L - 1` (30_encoding.md R90). -/
def Opcode.arity (op : Opcode) : Nat := op.length - 1

/-- The mode digits (30_encoding.md R95).  PRESUMED for 1 and 2 (92_eei_decisions.md D6; log 12). -/
def Mode.digit : Mode → Nat
  | .position  => 0
  | .immediate => 1
  | .relative  => 2

/-- The same table read from the digit; 3 to 9 are no mode (30_encoding.md R96). -/
def Mode.ofDigit : Nat → Option Mode
  | 0 => some .position
  | 1 => some .immediate
  | 2 => some .relative
  | _ => none

/-! ### The opcode word -/

/-- `digit_k(w)`, decimal digit k of `w ≥ 0` (00_scope.md R12). -/
def digit (k w : Nat) : Nat := w / 10 ^ k % 10

/-- Why an opcode word is rejected (30_encoding.md R103). -/
inductive OpwordError where
  /-- `w` selects no instruction (R97) -/
  | unknownOpcode (w : Int)
  /-- the mode digit of parameter `i` is 3 to 9 (R96) -/
  | invalidMode (i : Nat)
  deriving DecidableEq, Repr

/-- A decoded opcode word: the opcode and the modes of its parameters.  A parameter the opcode does not have stands
as POSITION here, and nothing reads it (DESIGN CHOICE, log 25). -/
structure Head where
  op : Opcode
  m0 : Mode
  m1 : Mode
  m2 : Mode
  deriving DecidableEq, Repr

/-- The mode of parameter i. -/
def Head.mode (h : Head) : Nat → Mode
  | 0 => h.m0
  | 1 => h.m1
  | _ => h.m2

/-- The mode of parameter i of an opcode with n parameters: digit `2+i` if the opcode uses it (30_encoding.md R91,
R96); an unused digit is not read (R92). -/
def modeField (n i w : Nat) : Except OpwordError Mode :=
  if i < n then
    match Mode.ofDigit (digit (2 + i) w) with
    | some m => .ok m
    | none => .error (.invalidMode i)
  else .ok .position

/-- `decode_opword(w)` (30_encoding.md R103): every mode digit is checked, the lowest index first, before any
operand is read. -/
def decodeOpword (w : Int) : Except OpwordError Head :=
  if w < 0 then .error (.unknownOpcode w) else
  match Opcode.ofValue (w.toNat % 100) with
  | none => .error (.unknownOpcode w)
  | some op =>
    match modeField op.arity 0 w.toNat with
    | .error e => .error e
    | .ok m0 =>
      match modeField op.arity 1 w.toNat with
      | .error e => .error e
      | .ok m1 =>
        match modeField op.arity 2 w.toNat with
        | .error e => .error e
        | .ok m2 => .ok { op := op, m0 := m0, m1 := m1, m2 := m2 }

/-- Three parameters fetched in left-to-right order (40_operand_addressing.md R120). -/
def Head.build3 {ε : Type} (h : Head) (param : Nat → Mode → Except ε Param) (mk : Param → Param → Param → Instr) :
    Except ε Instr :=
  match param 0 h.m0 with
  | .error e => .error e
  | .ok p0 =>
    match param 1 h.m1 with
    | .error e => .error e
    | .ok p1 =>
      match param 2 h.m2 with
      | .error e => .error e
      | .ok p2 => .ok (mk p0 p1 p2)

/-- Two parameters fetched in left-to-right order (40_operand_addressing.md R120). -/
def Head.build2 {ε : Type} (h : Head) (param : Nat → Mode → Except ε Param) (mk : Param → Param → Instr) :
    Except ε Instr :=
  match param 0 h.m0 with
  | .error e => .error e
  | .ok p0 =>
    match param 1 h.m1 with
    | .error e => .error e
    | .ok p1 => .ok (mk p0 p1)

/-- One parameter fetched. -/
def Head.build1 {ε : Type} (h : Head) (param : Nat → Mode → Except ε Param) (mk : Param → Instr) : Except ε Instr :=
  match param 0 h.m0 with
  | .error e => .error e
  | .ok p0 => .ok (mk p0)

/-- The instruction of a decoded opcode word, its parameters supplied by `param i mode` one at a time in the order
0, 1, 2 (40_operand_addressing.md R120).  The decoder on words and the fetch from memory both go through this. -/
def Head.build {ε : Type} (h : Head) (param : Nat → Mode → Except ε Param) : Except ε Instr :=
  match h.op with
  | .add  => h.build3 param .add
  | .mul  => h.build3 param .mul
  | .inp  => h.build1 param .inp
  | .out  => h.build1 param .out
  | .jnz  => h.build2 param .jnz
  | .jz   => h.build2 param .jz
  | .lt   => h.build3 param .lt
  | .eq   => h.build3 param .eq
  | .rb   => h.build1 param .rb
  | .halt => .ok .halt

/-! ### The decoder on words -/

/-- Why a list of words holds no instruction at its front. -/
inductive DecodeError where
  /-- the opcode word is rejected (30_encoding.md R103) -/
  | opword (e : OpwordError)
  /-- word `k` of the instruction is not there (30_encoding.md R90) -/
  | missingWord (k : Nat)
  deriving DecidableEq, Repr

/-- Parameter i of the instruction that starts a list of words: its raw operand is word `1 + i` (30_encoding.md R90). -/
def wordParam (ws : List Int) (i : Nat) (m : Mode) : Except DecodeError Param :=
  match ws[i + 1]? with
  | some r => .ok { mode := m, raw := r }
  | none => .error (.missingWord (i + 1))

/-- The instruction at the front of a list of words, and the words after it. -/
def decodeWords (ws : List Int) : Except DecodeError (Instr × List Int) :=
  match ws with
  | [] => .error (.missingWord 0)
  | w :: _ =>
    match decodeOpword w with
    | .error e => .error (.opword e)
    | .ok h =>
      match h.build (wordParam ws) with
      | .error e => .error e
      | .ok i => .ok (i, ws.drop h.op.length)

/-! ### The encoder -/

/-- The mode digits of a list of parameters, the first at the hundreds place (30_encoding.md R91). -/
def modeDigits : List Param → Nat
  | [] => 0
  | p :: ps => p.mode.digit + 10 * modeDigits ps

/-- `w = op + 100*m0 + 1000*m1 + 10000*m2`, unused mode digits 0 (30_encoding.md R91, R102). -/
def Instr.opword (i : Instr) : Int := ((i.opcode.value + 100 * modeDigits i.params : Nat) : Int)

/-- The words of an instruction: the opcode word, then the raw operands in order (30_encoding.md R90). -/
def encode (i : Instr) : List Int := i.opword :: i.params.map Param.raw

/-- The length of an instruction in words. -/
def Instr.length (i : Instr) : Nat := i.opcode.length

/-! ### Words numbered as spec/opcode_table.json numbers bits -/

/-- The width at which the host's bit numbering lays a word out.  DESIGN CHOICE (log 19): 64, the spec's floor for
WORD_BITS; the table itself gives no bits and no byte order exists (20_memory.md R65). -/
def tableWordBits : Nat := 64

/-- Word k of an instruction whose bits are w: bits `64k .. 64k+63`, read as a signed number (log 19). -/
def tableWord (nbits w k : Nat) : Int :=
  (BitVec.ofNat tableWordBits (w % 2 ^ nbits / 2 ^ (tableWordBits * k))).toInt

/-- The four words, the longest instruction, that `(nbits, w)` stands for. -/
def tableWords (nbits w : Nat) : List Int :=
  [tableWord nbits w 0, tableWord nbits w 1, tableWord nbits w 2, tableWord nbits w 3]

/-- The instruction the decoder reads from an instruction whose bits are w, every bit above nbits being 0. -/
def decodeTableWord (nbits w : Nat) : Option Instr :=
  match decodeWords (tableWords nbits w) with
  | .ok (i, _) => some i
  | .error _ => none

end Sys2Proof
end

