-- ==== Sys2Proof/Machine/State.lean ====
section
/-! DEFINITION. The state of one instance as plain data: everything spec/10_state.md gives the engine, the two
parameters it was built with, and the host's queues and RUN calls that a step reads or writes (log 4, 5, 6). -/

namespace Sys2Proof.Machine

/-- Memory: the cells that do not read as 0, as (address, word) pairs.  The spec's smallest unit is a whole Word and
there is no byte view (20_memory.md R60, R65, R66), so a cell holds a Word and not a byte (log 1). -/
abbrev Memory := List (Nat × Int)

/-- What a cell nothing has written reads as: 0 (10_state.md R32, 20_memory.md R64). -/
def Memory.unlisted : Int := 0

/-- The canonical form: addresses strictly rising, and no entry equal to what an unlisted address reads as. -/
abbrev Memory.wf (m : Memory) : Prop :=
  m.Pairwise (fun x y => x.1 < y.1) ∧ ∀ c ∈ m, c.2 ≠ Memory.unlisted

/-- The run status (10_state.md R36). -/
inductive Status where
  | running
  | suspended
  | halted
  | faulted
  deriving DecidableEq, Repr

/-- Why the engine is Suspended (10_state.md R38). -/
inductive YieldMarker where
  | none
  | early
  | late
  deriving DecidableEq, Repr

/-- The fault causes (60_exceptions.md R220). -/
inductive Cause where
  | memoryFault
  | unknownOpcode
  | emptyInputQueue
  | invalidRelativeBase
  | invalidMode
  | noDestination
  | arithmeticOverflow
  deriving DecidableEq, Repr

/-- The fault record (10_state.md R41): the cause, pc at the start of the faulting step, and the cause-specific
value of 60_exceptions.md R220. -/
structure FaultRecord where
  cause : Cause
  pc    : Int
  info  : Int
  deriving DecidableEq, Repr

/-- Which queue a RUN call names for one channel (10_state.md R47; log 6). -/
inductive QueueArg where
  /-- the queue of the run before, after the host has appended these values to it -/
  | same (appended : List Int)
  /-- another queue (or the same one after any other host action), holding these values -/
  | other (contents : List Int)
  deriving DecidableEq, Repr

/-- One RUN transaction the host makes: `run(inQ, outQ)` (41_execution_cycle.md R140, 10_state.md R46). -/
structure RunCall where
  inQ  : QueueArg
  outQ : QueueArg
  deriving DecidableEq, Repr

/-- The state of one instance. -/
structure State where
  /-- WORD_BITS and CAPACITY, fixed at construction (00_scope.md R8, 20_memory.md R63) -/
  cfg         : Config
  /-- `mem` (10_state.md R32) -/
  mem         : Memory
  /-- `pc` (10_state.md R33) -/
  pc          : Int
  /-- the relative base `rb` (10_state.md R35) -/
  rb          : Int
  /-- `status` (10_state.md R36) -/
  status      : Status
  /-- `yield_marker` (10_state.md R38) -/
  yieldMarker : YieldMarker
  /-- `resume_grant` (10_state.md R39) -/
  resumeGrant : Bool
  /-- `break_policy`, one bit per opcode category (10_state.md R40; log 17) -/
  breakPolicy : BitVec 10
  /-- the `fault` record, absent until a fault is taken (10_state.md R41) -/
  fault       : Option FaultRecord
  /-- `ID`, an opaque label that no rule reads (10_state.md R42; log 24) -/
  id          : List Char
  /-- the input queue of the current RUN, front first (10_state.md R47; log 4) -/
  inQ         : List Int
  /-- the output queue of the current RUN, front first (10_state.md R47; log 4) -/
  outQ        : List Int
  /-- the RUN transactions the host will still make, the next one first (log 5) -/
  calls       : List RunCall
  deriving DecidableEq, Repr

/-- Why a step stops the machine with no next state.  A fault of the spec is NOT one of these: its entry is a next
state whose status is Faulted (60_exceptions.md R228; log 9). -/
inductive Fault where
  /-- Raised by `step` (through `runEntry`) for a RUN of a Suspended state whose yield_marker is NONE: the spec rules
  such a state out (10_state.md R38) and gives its RUN no entry action (41_execution_cycle.md R141, R142).  Safe:
  the model stops where the spec gives no effect (log 8). -/
  | unmarkedSuspension
  deriving DecidableEq, Repr

/-- Why a step has no meaning. -/
inductive Refusal where
  /-- Raised by an arm of `exec` for an instruction without a meaning.  No arm does: every instruction has one.  Safe. -/
  | notModelled (mnemonic : String)
  /-- Raised by `step` (through `runEntry`) for a RUN that hands the engine a queue holding a value that is not a Word
  of the instance: "a host that supplies another value is outside the model" (92_eei_decisions.md D20,
  93_implementation_defined.md U12).  Safe (log 7). -/
  | channelValueNotWord
  deriving DecidableEq, Repr

/-- The machine right after reset: the construction of 70_reset_and_hazards.md R260 with the parameters
`Config.default` (log 2), an empty PROGRAM, an empty ID, the empty POLICY, empty queues and no RUN call to come
(DESIGN CHOICE, log 3).  pc, rb, status, yield_marker, resume_grant and fault have the spec's reset values
(10_state.md section 1; log 16). -/
def State.reset : State :=
  { cfg := Config.default, mem := [], pc := 0, rb := 0, status := .running, yieldMarker := .none, resumeGrant := false,
    breakPolicy := 0#10, fault := none, id := [], inQ := [], outQ := [], calls := [] }

end Sys2Proof.Machine
end

