-- ==== Sys2Proof/Machine/Ops.lean ====
section
/-! DEFINITION. The named operations over memory, registers and control state: memory access, fault entry, the two
yields and the entry of a RUN that returns from them, the break policy, and the fetch of an instruction. -/

namespace Sys2Proof.Machine

/-! ### Memory as data -/

/-- The word at an address: that of its entry, or what an unlisted address reads as. -/
def Memory.read : Memory → Nat → Int
  | [], _ => Memory.unlisted
  | (b, w) :: m, a => if a = b then w else Memory.read m a

/-- Put one word at an address, keeping the canonical form: writing what an unlisted address reads as removes the
entry. -/
def Memory.write : Memory → Nat → Int → Memory
  | [], a, v => if v = Memory.unlisted then [] else [(a, v)]
  | (b, w) :: m, a, v =>
    if a < b then (if v = Memory.unlisted then (b, w) :: m else (a, v) :: (b, w) :: m)
    else if a = b then (if v = Memory.unlisted then m else (a, v) :: m)
    else (b, w) :: Memory.write m a v

/-- Put consecutive words from an address on. -/
def Memory.load : Memory → Nat → List Int → Memory
  | m, _, [] => m
  | m, a, v :: vs => Memory.load (Memory.write m a v) (a + 1) vs

/-! ### Raising a fault -/

/-- `Fault(cause, info)` as the pseudocode raises it (00_scope.md R12). -/
structure Trap where
  cause : Cause
  info  : Int
  deriving DecidableEq, Repr

/-- The numeric codes of the causes (60_exceptions.md R220; the spec's own, log 18). -/
def Cause.code : Cause → Nat
  | .memoryFault         => 1
  | .unknownOpcode       => 2
  | .emptyInputQueue     => 3
  | .invalidRelativeBase => 4
  | .invalidMode         => 5
  | .noDestination       => 6
  | .arithmeticOverflow  => 7

/-- TAKING A FAULT (60_exceptions.md R228): the record saves the cause, pc at the start of the step and the info;
status becomes Faulted; nothing else changes. -/
def State.takeFault (t : Trap) (s : State) : State :=
  { s with fault := some { cause := t.cause, pc := s.pc, info := t.info }, status := .faulted }

/-- Part of a step that may raise a fault, turned into the outcome of the step: a raised fault is taken on the state
the part started from (60_exceptions.md R228). -/
def State.attempt (f : State → Except Trap State) (s : State) :
    Host.Outcome State Fault Refusal :=
  match f s with
  | .ok s' => .next s'
  | .error t => .next (s.takeFault t)

/-! ### Memory access by the engine -/

/-- `0 ≤ a < CAPACITY` (20_memory.md R60). -/
def State.mapped (s : State) (a : Int) : Bool := decide (0 ≤ a) && decide (a < (s.cfg.capacity : Int))

/-- `MemRead(a, 1)` (20_memory.md R61). -/
def State.memRead (s : State) (a : Int) : Except Trap Int :=
  if s.mapped a then .ok (s.mem.read a.toNat) else .error { cause := .memoryFault, info := a }

/-- Put a word at a mapped address. -/
def State.setCell (s : State) (a v : Int) : State := { s with mem := s.mem.write a.toNat v }

/-- `MemWrite(a, 1, v)` (20_memory.md R62). -/
def State.memWrite (s : State) (a v : Int) : Except Trap State :=
  if s.mapped a then .ok (s.setCell a v) else .error { cause := .memoryFault, info := a }

/-! ### Registers and channels -/

/-- `pc <- target`. -/
def State.setPc (s : State) (a : Int) : State := { s with pc := a }

/-- `pc <- pc + L` (41_execution_cycle.md R150), an exact sum: pc does not wrap (10_state.md R33). -/
def State.advance (s : State) (n : Nat) : State := s.setPc (s.pc + n)

/-- `rb <- r`. -/
def State.setRb (s : State) (r : Int) : State := { s with rb := r }

/-- The input queue after a pop (20_memory.md R76). -/
def State.setInQ (s : State) (q : List Int) : State := { s with inQ := q }

/-- `push(outQ, v)`: at the back (20_memory.md R76, 44_io.md R203). -/
def State.pushOut (s : State) (v : Int) : State := { s with outQ := s.outQ ++ [v] }

/-- `status <- Halted` (45_base_and_halt.md R211). -/
def State.halt (s : State) : State := { s with status := .halted }

/-! ### The suspension controller -/

/-- The bit of an opcode category in the break policy (10_state.md R40; the spec's encoding D15, log 17). -/
def policyBit : Opcode → Nat
  | .add  => 0
  | .mul  => 1
  | .inp  => 2
  | .out  => 3
  | .jnz  => 4
  | .jz   => 5
  | .lt   => 6
  | .eq   => 7
  | .rb   => 8
  | .halt => 9

/-- `break_policy[bit(op)]` as it reads: bit 3 (OUT) reads as 1 whatever the host supplied (10_state.md R40). -/
def State.inPolicy (s : State) (op : Opcode) : Bool := op == .out || s.breakPolicy.getLsbD (policyBit op)

/-- `gated = (op ≠ OUT) and break_policy[bit(op)]` (41_execution_cycle.md R147). -/
def State.gated (s : State) (op : Opcode) : Bool := op != .out && s.inPolicy op

/-- The early yield (41_execution_cycle.md R147). -/
def State.yieldEarly (s : State) : State := { s with status := .suspended, yieldMarker := .early }

/-- The late yield after OUT (41_execution_cycle.md R151). -/
def State.yieldLate (s : State) : State := { s with status := .suspended, yieldMarker := .late }

/-- `resume_grant <- false`. -/
def State.clearGrant (s : State) : State := { s with resumeGrant := false }

/-- The policy check holds the instruction back (41_execution_cycle.md R147). -/
def State.yieldsBefore (s : State) (op : Opcode) : Bool := s.gated op && !s.resumeGrant

/-! ### RUN: the return from a yield -/

/-- The queue a RUN names, given the one in use before (10_state.md R47; log 6). -/
def QueueArg.resolve (q : List Int) : QueueArg → List Int
  | .same appended => q ++ appended
  | .other contents => contents

/-- The values a RUN brings with a queue argument. -/
def QueueArg.values : QueueArg → List Int
  | .same appended => appended
  | .other contents => contents

/-- Every value a RUN brings is a Word of the instance (10_state.md R47, 92_eei_decisions.md D20). -/
def RunCall.wordsOnly (c : RunCall) (b : WordBits) : Bool :=
  c.inQ.values.all b.inRange && c.outQ.values.all b.inRange

/-- The queues of a RUN become the engine's channels for that run (10_state.md R47). -/
def State.attachQueues (c : RunCall) (s : State) : State :=
  { s with inQ := c.inQ.resolve s.inQ, outQ := c.outQ.resolve s.outQ }

/-- Entry from an early yield (41_execution_cycle.md R141). -/
def State.resumeEarly (s : State) : State :=
  { s with resumeGrant := true, yieldMarker := .none, status := .running }

/-- Entry from a late yield (41_execution_cycle.md R142). -/
def State.resumeLate (s : State) : State := { s with yieldMarker := .none, status := .running }

/-- RETURN FROM A YIELD: the entry action of a RUN (41_execution_cycle.md R141 to R145).  On a Halted or Faulted
instance the RUN returns at once and changes no state (R143, R144).  On a Running one (only the first RUN, R145)
the entry action is empty and the RUN only names its queues.  A Suspended state without a marker has no entry action
(log 8), and a queue holding something that is not a Word is refused (log 7). -/
def State.runEntry (c : RunCall) (s : State) : Host.Outcome State Fault Refusal :=
  match s.status with
  | .halted | .faulted => .next s
  | .running =>
    if c.wordsOnly s.cfg.wordBits then .next (s.attachQueues c) else .refused .channelValueNotWord
  | .suspended =>
    match s.yieldMarker with
    | .none => .fault .unmarkedSuspension
    | .early =>
      if c.wordsOnly s.cfg.wordBits then .next (s.attachQueues c).resumeEarly else .refused .channelValueNotWord
    | .late =>
      if c.wordsOnly s.cfg.wordBits then .next (s.attachQueues c).resumeLate else .refused .channelValueNotWord

/-- The host's next RUN leaves the list of those to come. -/
def State.setCalls (s : State) (cs : List RunCall) : State := { s with calls := cs }

/-- What a state that is not Running does: it waits for the host's next RUN, the only event that wakes it
(60_exceptions.md R240), and with no RUN to come it stays as it is (log 5). -/
def State.awaitRun (s : State) : Host.Outcome State Fault Refusal :=
  match s.calls with
  | [] => .next s
  | c :: cs => (s.setCalls cs).runEntry c

/-! ### Effective addresses and operand values -/

/-- The effective address of a parameter, if its mode has one (40_operand_addressing.md R122 to R124): an exact sum,
never wrapped (R128). -/
def State.effAddr (s : State) (p : Param) : Option Int :=
  match p.mode with
  | .position  => some p.raw
  | .immediate => none
  | .relative  => some (p.raw + s.rb)

/-- The value of a parameter (40_operand_addressing.md R122 to R124). -/
def State.value (s : State) (p : Param) : Except Trap Int :=
  match s.effAddr p with
  | none => .ok p.raw
  | some ea => s.memRead ea

/-! ### Fetch -/

/-- The fault a rejected opcode word raises (30_encoding.md R96, R97). -/
def opwordTrap : OpwordError → Trap
  | .unknownOpcode w => { cause := .unknownOpcode, info := w }
  | .invalidMode i => { cause := .invalidMode, info := i }

/-- Parameter i of the instruction at pc: its raw operand is read at `pc + 1 + i` (40_operand_addressing.md R121),
and its value read is tried before the next parameter's operand word is fetched, as R120 and R129 order them.  The
value itself is read again by the meaning; reads have no side effect (20_memory.md R69; DEDUCED, log 10). -/
def State.fetchParam (s : State) (i : Nat) (m : Mode) : Except Trap Param :=
  match s.memRead (s.pc + 1 + i) with
  | .error t => .error t
  | .ok raw =>
    match s.value { mode := m, raw := raw } with
    | .error t => .error t
    | .ok _ => .ok { mode := m, raw := raw }

/-- Phase 1 of a step (41_execution_cycle.md R146): fetch the opcode word at pc, decode it, fetch every parameter.
Faults come in the order of 60_exceptions.md R231, items 1 to 4. -/
def State.fetchInstr (s : State) : Except Trap Instr :=
  match s.memRead s.pc with
  | .error t => .error t
  | .ok w =>
    match decodeOpword w with
    | .error e => .error (opwordTrap e)
    | .ok h => h.build s.fetchParam

/-- The words from an address on, as many of n as are mapped. -/
def State.wordsAt (s : State) (a : Int) : Nat → List Int
  | 0 => []
  | n + 1 =>
    match s.memRead a with
    | .error _ => []
    | .ok w => w :: s.wordsAt (a + 1) n

end Sys2Proof.Machine
end

