-- ==== Sys2Proof/Machine/Flags.lean ====
section
/-! DEFINITION. The conditions the integer ALU computes.  The architecture has no flags or condition codes
(spec/10_state.md R44): a comparison is the word 1 or 0, a branch tests a value, and overflow is a fault. -/

namespace Sys2Proof.Machine

/-- A comparison result as a word, 1 or 0 (10_state.md R44). -/
def boolWord (b : Bool) : Int := if b then 1 else 0

/-- LT: the signed order on integers (42_alu.md R172, R174). -/
def ltWord (a b : Int) : Int := boolWord (decide (a < b))

/-- EQ: integer equality (42_alu.md R173, R174). -/
def eqWord (a b : Int) : Int := boolWord (decide (a = b))

/-- The zero test of JNZ and JZ (43_branch.md R190, R191). -/
def isZero (a : Int) : Bool := decide (a = 0)

/-- An exact result checked against the Word range: outside it the ArithmeticOverflow fault, never a wrapped value
(42_alu.md R175). -/
def State.checked (s : State) (r : Int) : Except Trap Int :=
  if s.cfg.wordBits.inRange r then .ok r else .error { cause := .arithmeticOverflow, info := r }

end Sys2Proof.Machine
end

