-- ==== Sys2Proof/Machine/Operands.lean ====
section
/-! DEFINITION. Operand resolution and the destination latch (spec/40_operand_addressing.md R120 to R130). -/

namespace Sys2Proof.Machine

/-- What the decoder hands to dispatch (40_operand_addressing.md R130): the resolved values in order and the
destination latch, `none` while `dest_valid` is false (R125).  It exists only within a step (10_state.md R43). -/
structure Latches where
  val  : List Int
  dest : Option Int
  deriving DecidableEq, Repr

/-- The latches at the start of a step: no value, `dest_valid` false (40_operand_addressing.md R125). -/
def Latches.empty : Latches := { val := [], dest := none }

/-- `val[i]`.  A handler reads only indices its opcode has. -/
def Latches.v (l : Latches) (i : Nat) : Int := l.val.getD i 0

/-- The latches after one more parameter: its value is appended, and a POSITION or RELATIVE parameter moves the
destination to its effective address (40_operand_addressing.md R122 to R125). -/
def Latches.push (l : Latches) (v : Int) (ea : Option Int) : Latches :=
  { val := l.val ++ [v], dest := ea.or l.dest }

/-- The loop of 40_operand_addressing.md R129 over the parameters that are left. -/
def State.resolveFrom (s : State) : Latches → List Param → Except Trap Latches
  | l, [] => .ok l
  | l, p :: ps =>
    match s.value p with
    | .error t => .error t
    | .ok v => s.resolveFrom (l.push v (s.effAddr p)) ps

/-- Operand resolution of one instruction (40_operand_addressing.md R129). -/
def State.resolve (s : State) (ps : List Param) : Except Trap Latches := s.resolveFrom Latches.empty ps

/-- The address a writing opcode stores to: the effective address of the last POSITION or RELATIVE parameter
(40_operand_addressing.md R125, R127). -/
def State.destOf (s : State) (ps : List Param) : Option Int :=
  ps.foldl (fun d p => (s.effAddr p).or d) none

/-- The destination of a writing opcode, or its NoDestination fault (40_operand_addressing.md R127). -/
def Latches.destination (l : Latches) : Except Trap Int :=
  match l.dest with
  | some d => .ok d
  | none => .error { cause := .noDestination, info := 0 }

/-- One instruction: resolve its parameters, then run its handler on the latches (41_execution_cycle.md R148).  A
fault of either is taken on the state the step started from (60_exceptions.md R228). -/
def State.runHandler (ps : List Param) (handler : Latches → State → Except Trap State) (s : State) :
    Host.Outcome State Fault Refusal :=
  s.attempt fun s =>
    match s.resolve ps with
    | .error t => .error t
    | .ok l => handler l s

end Sys2Proof.Machine
end

