-- ==== Sys2Proof/Machine/Alu.lean ====
section
/-! DEFINITION. The integer ALU: ADD, MUL, LT, EQ (spec/42_alu.md). -/

namespace Sys2Proof.Machine

/-- The handler the four share: NoDestination first, then the result (which may fault), then the one write, then
`pc <- pc + 4` (42_alu.md R170 to R173; 60_exceptions.md R231 item 6; 41_execution_cycle.md R150). -/
def aluHandler (result : State → Int → Int → Except Trap Int) (l : Latches) (s : State) : Except Trap State :=
  match l.destination with
  | .error t => .error t
  | .ok d =>
    match result s (l.v 0) (l.v 1) with
    | .error t => .error t
    | .ok r =>
      match s.memWrite d r with
      | .error t => .error t
      | .ok s' => .ok (s'.advance 4)

/-- ADD (42_alu.md R170): the exact sum, checked. -/
def execAdd (p0 p1 p2 : Param) (s : State) : Host.Outcome State Fault Refusal :=
  s.runHandler [p0, p1, p2] (aluHandler fun s a b => s.checked (a + b))

/-- MUL (42_alu.md R171): the exact product, checked. -/
def execMul (p0 p1 p2 : Param) (s : State) : Host.Outcome State Fault Refusal :=
  s.runHandler [p0, p1, p2] (aluHandler fun s a b => s.checked (a * b))

/-- LT (42_alu.md R172). -/
def execLt (p0 p1 p2 : Param) (s : State) : Host.Outcome State Fault Refusal :=
  s.runHandler [p0, p1, p2] (aluHandler fun _ a b => .ok (ltWord a b))

/-- EQ (42_alu.md R173). -/
def execEq (p0 p1 p2 : Param) (s : State) : Host.Outcome State Fault Refusal :=
  s.runHandler [p0, p1, p2] (aluHandler fun _ a b => .ok (eqWord a b))

end Sys2Proof.Machine
end

