-- ==== Sys2Proof/Machine/BaseHalt.lean ====
section
/-! DEFINITION. Relative-base adjust and halt: RB and HALT (spec/45_base_and_halt.md). -/

namespace Sys2Proof.Machine

/-- The handler of RB (45_base_and_halt.md R210): the exact sum, InvalidRelativeBase if it is negative, then
ArithmeticOverflow if it is no Word, then the write of rb and `pc <- pc + 2`. -/
def rbHandler (l : Latches) (s : State) : Except Trap State :=
  if s.rb + l.v 0 < 0 then .error { cause := .invalidRelativeBase, info := s.rb + l.v 0 }
  else
    match s.checked (s.rb + l.v 0) with
    | .error t => .error t
    | .ok r => .ok ((s.setRb r).advance 2)

/-- The handler of HALT (45_base_and_halt.md R211): pc is not advanced (41_execution_cycle.md R149). -/
def haltHandler (_ : Latches) (s : State) : Except Trap State := .ok s.halt

/-- RB (45_base_and_halt.md R210). -/
def execRb (p0 : Param) (s : State) : Host.Outcome State Fault Refusal := s.runHandler [p0] rbHandler

/-- HALT (45_base_and_halt.md R211). -/
def execHalt (s : State) : Host.Outcome State Fault Refusal := s.runHandler [] haltHandler

end Sys2Proof.Machine
end

