-- ==== Sys2Proof/Machine/Branch.lean ====
section
/-! DEFINITION. The conditional branches JNZ and JZ (spec/43_branch.md). -/

namespace Sys2Proof.Machine

/-- A branch: to `val[1]`, whatever its value, when taken, else past the instruction (43_branch.md R190, R191; the
target is checked by the next fetch, log 15).  It never uses the destination latch. -/
def branchHandler (taken : Int → Bool) (l : Latches) (s : State) : Except Trap State :=
  if taken (l.v 0) then .ok (s.setPc (l.v 1)) else .ok (s.advance 3)

/-- JNZ (43_branch.md R190). -/
def execJnz (p0 p1 : Param) (s : State) : Host.Outcome State Fault Refusal :=
  s.runHandler [p0, p1] (branchHandler fun c => !isZero c)

/-- JZ (43_branch.md R191). -/
def execJz (p0 p1 : Param) (s : State) : Host.Outcome State Fault Refusal :=
  s.runHandler [p0, p1] (branchHandler isZero)

end Sys2Proof.Machine
end

