-- ==== Sys2Proof/Machine/Io.lean ====
section
/-! DEFINITION. The channel instructions IN and OUT (spec/44_io.md). -/

namespace Sys2Proof.Machine

/-- The handler of IN (44_io.md R200): NoDestination, then EmptyInputQueue, then the pop and the write, then
`pc <- pc + 2`. -/
def inHandler (l : Latches) (s : State) : Except Trap State :=
  match l.destination with
  | .error t => .error t
  | .ok d =>
    match s.inQ with
    | [] => .error { cause := .emptyInputQueue, info := 0 }
    | v :: q =>
      match (s.setInQ q).memWrite d v with
      | .error t => .error t
      | .ok s' => .ok (s'.advance 2)

/-- The handler of OUT (44_io.md R201): the push, `pc <- pc + 2`, then the late yield (41_execution_cycle.md R151). -/
def outHandler (l : Latches) (s : State) : Except Trap State :=
  .ok ((s.pushOut (l.v 0)).advance 2).yieldLate

/-- IN (44_io.md R200). -/
def execIn (p0 : Param) (s : State) : Host.Outcome State Fault Refusal := s.runHandler [p0] inHandler

/-- OUT (44_io.md R201). -/
def execOut (p0 : Param) (s : State) : Host.Outcome State Fault Refusal := s.runHandler [p0] outHandler

end Sys2Proof.Machine
end

