-- ==== Sys2Proof/Machine/Dispatch.lean ====
section
/-! DEFINITION. Dispatch: one arm per instruction (spec/41_execution_cycle.md R148). -/

namespace Sys2Proof.Machine

def exec (i : Instr) (s : State) : Host.Outcome State Fault Refusal :=
  match i with
  | .add p0 p1 p2 => Sys2Proof.Machine.execAdd p0 p1 p2 s
  | .mul p0 p1 p2 => Sys2Proof.Machine.execMul p0 p1 p2 s
  | .inp p0 => Sys2Proof.Machine.execIn p0 s
  | .out p0 => Sys2Proof.Machine.execOut p0 s
  | .jnz p0 p1 => Sys2Proof.Machine.execJnz p0 p1 s
  | .jz p0 p1 => Sys2Proof.Machine.execJz p0 p1 s
  | .lt p0 p1 p2 => Sys2Proof.Machine.execLt p0 p1 p2 s
  | .eq p0 p1 p2 => Sys2Proof.Machine.execEq p0 p1 p2 s
  | .rb p0 => Sys2Proof.Machine.execRb p0 s
  | .halt => Sys2Proof.Machine.execHalt s

end Sys2Proof.Machine
end

