-- ==== Sys2Proof/Machine/Cycle.lean ====
section
/-! DEFINITION. The engine's step while Running: the phases of spec/41_execution_cycle.md R158 in their order. -/

namespace Sys2Proof.Machine

/-- One step of the engine while Running (41_execution_cycle.md R158): fetch and decode, where a fault ends the step
(R146); the policy check, where an early yield ends it (R147); then the instruction (R148 to R151).  DEDUCED
(log 11): exec is phases 3 to 6; a fault in decode leaves resume_grant as it was, one in a handler finds it cleared
(log 21). -/
def engineStep (s : State) : Host.Outcome State Fault Refusal :=
  match s.fetchInstr with
  | .error t => .next (s.takeFault t)
  | .ok i => if s.yieldsBefore i.opcode then .next s.yieldEarly else exec i s.clearGrant

end Sys2Proof.Machine
end

