-- ==== Sys2Proof/Machine/Step.lean ====
section
/-! DEFINITION. One step of the machine (spec/41_execution_cycle.md R158), and where a step's next instruction is
stored.  The engine's own step is in Cycle, everything it calls in Ops and the families. -/

namespace Sys2Proof.Machine

/-- One step of the machine: of the engine while Running; otherwise the engine takes no step (60_exceptions.md R240),
and the step is the entry of the host's next RUN, if there is one (log 5). -/
def step (s : State) : Host.Outcome State Fault Refusal :=
  match s.status with
  | .running => engineStep s
  | .suspended | .halted | .faulted => s.awaitRun

/-- The address `withFetchWord` stores at: pc if the four words fit there, else 0. -/
def State.fetchBase (s : State) : Nat :=
  if 0 ≤ s.pc ∧ s.pc + 4 ≤ (s.cfg.capacity : Int) then s.pc.toNat else 0

/-- s with the instruction `(nbits, w)` of `decodeTableWord` stored where `step` fetches next, so that the very next
step runs it: its four words stand at pc; a state that is not Running becomes so, as a RUN would make it; and where
the break policy holds a category back, the grant of one pass is set (log 19). -/
def State.withFetchWord (s : State) (nbits w : Nat) : State :=
  { s with
    mem := s.mem.load s.fetchBase (tableWords nbits w)
    pc := s.fetchBase
    status := .running
    yieldMarker := .none
    resumeGrant := s.resumeGrant || s.breakPolicy != 0#10 }

end Sys2Proof.Machine
end

