-- ==== Sys2Proof/Machine/Interface.lean ====
section
/-! DEFINITION. The host's transactions other than RUN (spec/10_state.md R46): CONSTRUCT, STATUS, FAULT, INSPECT, and
the diagnostic window it reads after a fault (spec/60_exceptions.md R230).  None of them is called by a step. -/

namespace Sys2Proof.Machine

/-- Why a construction is refused (70_reset_and_hazards.md R262, 00_scope.md R9). -/
inductive ConstructRefusal where
  /-- CAPACITY breaks R9 (a) or R9 (c), or WORD_BITS breaks R8 (log 27) -/
  | badParameters
  /-- `|PROGRAM| > CAPACITY` (R9 (a)) -/
  | programTooLong
  /-- an element of PROGRAM is not a Word (R9 (b)) -/
  | programNotWords
  deriving DecidableEq, Repr

/-- CONSTRUCT(PROGRAM, ID, POLICY) for an instance with parameters cfg (70_reset_and_hazards.md R260): check the
constraints, then give every state element its reset value.  No RUN has been made: the queues are empty and no call
is listed (log 3). -/
def State.construct (cfg : Config) (program : List Int) (id : List Char) (policy : BitVec 10) :
    Except ConstructRefusal State :=
  if !cfg.valid then .error .badParameters
  else if cfg.capacity < program.length then .error .programTooLong
  else if !program.all cfg.wordBits.inRange then .error .programNotWords
  else .ok
    { cfg := cfg, mem := Memory.load [] 0 program, pc := 0, rb := 0, status := .running, yieldMarker := .none,
      resumeGrant := false, breakPolicy := policy, fault := none, id := id, inQ := [], outQ := [], calls := [] }

/-- STATUS (10_state.md R46). -/
def State.statusPort (s : State) : Status := s.status

/-- FAULT (10_state.md R46): the record is valid only while Faulted (R41). -/
def State.faultPort (s : State) : Option FaultRecord :=
  if s.status = .faulted then s.fault else none

/-- INSPECT(a) (10_state.md R46): read-only; no value outside the memory.  That the host calls it only between runs is
the host's own order of calls (log 20). -/
def State.inspect (s : State) (a : Int) : Option Int :=
  if s.mapped a then some (s.mem.read a.toNat) else none

/-- The bounds of the diagnostic window around an address: `max(0, pc-7)` and `min(CAPACITY-1, pc+7)`
(60_exceptions.md R230). -/
def State.diagBounds (s : State) (pc : Int) : Int × Int :=
  (max 0 (pc - 7), min ((s.cfg.capacity : Int) - 1) (pc + 7))

/-- The diagnostic window of a Faulted instance: its bounds, or nothing if it is empty (60_exceptions.md R230). -/
def State.diagWindow (s : State) : Option (Int × Int) :=
  match s.faultPort with
  | none => none
  | some f =>
    let b := s.diagBounds f.pc
    if b.2 < b.1 then none else some b

/-- The memory slice of the diagnostic window (60_exceptions.md R230). -/
def State.diagCells (s : State) : List Int :=
  match s.diagWindow with
  | none => []
  | some b => (List.range (b.2 - b.1 + 1).toNat).map fun (k : Nat) => s.mem.read (b.1.toNat + k)

end Sys2Proof.Machine
end

