-- ==== Sys2Proof/Machine/Run.lean ====
section
/-! DEFINITION. The RUN transaction (spec/41_execution_cycle.md R140 to R145) as a sequence of engine steps. -/

namespace Sys2Proof.Machine

/-- The loop "While status is `Running`" (41_execution_cycle.md R145) for at most n steps: the status it returns and the
state it leaves, or nothing while it has not returned.  A run has no step limit (R156): n only says how far one looks,
and `none` is no status (log 23). -/
def runLoop : Nat → State → Option (Status × State)
  | 0, s => if s.status = .running then none else some (s.status, s)
  | n + 1, s =>
    if s.status = .running then
      match engineStep s with
      | .next s' => runLoop n s'
      | .fault _ => none
      | .refused _ => none
    else some (s.status, s)

/-- `run(inQ, outQ) -> status` (41_execution_cycle.md R140): the entry action, then the loop. -/
def runFor (n : Nat) (c : RunCall) (s : State) : Option (Status × State) :=
  match s.runEntry c with
  | .next s' => runLoop n s'
  | .fault _ => none
  | .refused _ => none

/-- A RUN of s with call c returns, with this status and this state. -/
def RunReturns (c : RunCall) (s : State) (st : Status) (s' : State) : Prop := ∃ n, runFor n c s = some (st, s')

/-- A RUN of s with call c never returns (41_execution_cycle.md R156): however many steps it takes, it is Running. -/
def RunDiverges (c : RunCall) (s : State) : Prop :=
  ∃ s', s.runEntry c = .next s' ∧ ∀ n, runLoop n s' = none

end Sys2Proof.Machine
end

