-- ==== Sys2Proof/Machine/System.lean ====
section
/-! DEFINITION. Several instances under one host (spec/60_exceptions.md R238): they share nothing but the host's queues,
and a system moves by whole runs, in an order the host is free to choose (spec/93_implementation_defined.md U18). -/

namespace Sys2Proof.Machine

/-- A host's instances and its queues, each by its number. -/
structure System where
  instances : List State
  queues    : List (List Int)
  deriving DecidableEq, Repr

/-- The RUN call that hands an instance queue `i` as its input and an empty list in which its pushes collect. -/
def System.call (y : System) (i : Nat) : RunCall :=
  { inQ := .other (y.queues.getD i []), outQ := .other [] }

/-- The queues after a run: the input queue is what the run left of it, and the run's pushes stand at the back of the
output queue, which may be the same queue. -/
def System.settleQueues (y : System) (i o : Nat) (s : State) : List (List Int) :=
  let q := y.queues.set i s.inQ
  q.set o (q.getD o [] ++ s.outQ)

/-- One whole run of instance k on queues i and o, serialized with every other (20_memory.md R74).  On an instance that
is Halted or Faulted the RUN returns at once and touches no queue (41_execution_cycle.md R143, R144). -/
inductive System.RunsTo : System → System → Prop where
  | run (y : System) (k i o : Nat) (s s' : State) (st : Status)
      (instance_there : y.instances[k]? = some s)
      (in_there : i < y.queues.length) (out_there : o < y.queues.length)
      (live : s.status = .running ∨ s.status = .suspended)
      (returns : RunReturns (y.call i) s st s') :
      System.RunsTo y { instances := y.instances.set k s', queues := y.settleQueues i o s' }
  | idle (y : System) (k : Nat) (s : State)
      (instance_there : y.instances[k]? = some s)
      (ended : s.status = .halted ∨ s.status = .faulted) :
      System.RunsTo y y

end Sys2Proof.Machine
end

