-- ==== Sys2Proof/Safety.lean ====
section
/-! DEFINITION. What counts as a safe state and a safe run, and the invariant of the states the engine reaches. -/

namespace Sys2Proof.Machine

/-- A Faulted state is a bad end, never a normal one (60_exceptions.md R229). -/
def State.safe (s : State) : Prop := s.status ≠ .faulted

/-- A run is safe when it returns and does not return Faulted. -/
def SafeRun (c : RunCall) (s : State) : Prop := ∃ st s', RunReturns c s st s' ∧ st ≠ .faulted

/-- Every word of a list is a Word of this width. -/
def allWords (b : WordBits) (ws : List Int) : Prop := ∀ v ∈ ws, b.inRange v = true

/-- What holds of every state the engine reaches: the parameters meet R8 and R9; memory is canonical, every listed cell
is mapped and holds a Word (10_state.md R31, R32); pc and rb are Words and rb is not negative (R33, R35); a yield
marker stands exactly while Suspended (R38); a fault record stands exactly while Faulted (R41); and channel values are
Words (R47).  States outside it can be written down, but no construction and no step from one inside it gives them
(log 27). -/
structure State.Inv (s : State) : Prop where
  cfg_valid   : s.cfg.valid = true
  mem_wf      : Memory.wf s.mem
  mem_mapped  : ∀ c ∈ s.mem, c.1 < s.cfg.capacity
  mem_words   : ∀ c ∈ s.mem, s.cfg.wordBits.inRange c.2 = true
  pc_word     : s.cfg.wordBits.inRange s.pc = true
  rb_word     : s.cfg.wordBits.inRange s.rb = true
  rb_nonneg   : 0 ≤ s.rb
  marker      : s.yieldMarker = .none ↔ s.status ≠ .suspended
  fault_there : s.fault.isSome = true ↔ s.status = .faulted
  inQ_words   : allWords s.cfg.wordBits s.inQ
  outQ_words  : allWords s.cfg.wordBits s.outQ

end Sys2Proof.Machine
end

