-- ==== Sys2Proof/Certificates/Slice0/Obligations.lean ====
section
/-! DEFINITION. The statements for the provers.  Rule names R<n> are of spec/; "log n" is notes/assumptions/n.md.
Numeric opcodes 3 to 9 and mode digits 1 and 2 are the spec's own from general knowledge (log 12); the causes, info
values and layout of the fault record are the spec's own (D17, log 18). -/

open Sys2Proof Sys2Proof.Machine

/-! ### Encoding -/

/-- Decoding the words of any instruction, whatever words follow, gives it back with every operand, and leaves the words
that follow (30_encoding.md R90, R91, R102). -/
def Obligations.DecodeOfEncodeIsIdentity : Prop :=
  ∀ (i : Instr) (rest : List Int), decodeWords (encode i ++ rest) = .ok (i, rest)

/-- Words written out from the spec's own table (95_test_vectors.md DEC1 to DEC22) decode as it says.  The values rest on
the opcode and mode numbers of log 12, the faults on D6 and D7 (log 13); that a parameter the opcode lacks stands as
POSITION is the model's choice (log 25). -/
def Obligations.SpecTableWordsDecode : Prop :=
  decodeOpword 1002 = .ok { op := .mul, m0 := .position, m1 := .immediate, m2 := .position } ∧
  decodeOpword 21207 = .ok { op := .lt, m0 := .relative, m1 := .immediate, m2 := .relative } ∧
  decodeOpword 203 = .ok { op := .inp, m0 := .relative, m1 := .position, m2 := .position } ∧
  decodeOpword 90104 = .ok { op := .out, m0 := .immediate, m1 := .position, m2 := .position } ∧
  decodeOpword 2105 = .ok { op := .jnz, m0 := .immediate, m1 := .relative, m2 := .position } ∧
  decodeOpword 209 = .ok { op := .rb, m0 := .relative, m1 := .position, m2 := .position } ∧
  decodeOpword 99999 = .ok { op := .halt, m0 := .position, m1 := .position, m2 := .position } ∧
  decodeOpword 98 = .error (.unknownOpcode 98) ∧
  decodeOpword (-101) = .error (.unknownOpcode (-101)) ∧
  decodeOpword 30001 = .error (.invalidMode 2)

/-- Exactly which opcode words decode to an opcode with these modes: `w ≥ 0`, `w mod 100` is the opcode's number, and
decimal digit `2+i` is the digit of the mode of parameter i for every parameter the opcode has; no other digit is
constrained (30_encoding.md R91, R92, R93, R95).  Modes of parameters the opcode lacks stand as POSITION (log 25). -/
def Obligations.OpcodeWordDecodesByItsDigits : Prop :=
  ∀ (w : Int) (h : Head), decodeOpword w = .ok h ↔
    0 ≤ w ∧ w.toNat % 100 = h.op.value ∧
    (if 0 < h.op.arity then digit 2 w.toNat = h.m0.digit else h.m0 = .position) ∧
    (if 1 < h.op.arity then digit 3 w.toNat = h.m1.digit else h.m1 = .position) ∧
    (if 2 < h.op.arity then digit 4 w.toNat = h.m2.digit else h.m2 = .position)

/-- Replacing every digit above those of the opcode and its parameters' modes by anything changes nothing
(30_encoding.md R92). -/
def Obligations.UnusedDigitsIgnored : Prop :=
  ∀ (w : Int) (h : Head) (k : Nat), decodeOpword w = .ok h →
    decodeOpword ((w.toNat % 10 ^ (2 + h.op.arity) + 10 ^ (2 + h.op.arity) * k : Nat) : Int) = .ok h

/-- An opcode word `w ≥ 0` with `w mod 100` none of the ten faults with UnknownOpcode, reporting the pc of the word, and
changes nothing else (60_exceptions.md R222, R228). -/
def Obligations.UnknownOpcodeFaultsAtItsPc : Prop :=
  ∀ (s : State) (w : Int), s.status = .running → s.memRead s.pc = .ok w → 0 ≤ w →
    w.toNat % 100 ∉ [1, 2, 3, 4, 5, 6, 7, 8, 9, 99] →
    step s = .next { s with status := .faulted, fault := some { cause := .unknownOpcode, pc := s.pc, info := w } }

/-- A negative opcode word is an unknown opcode.  The spec's own choice (92_eei_decisions.md D7; log 13). -/
def Obligations.NegativeOpcodeWordFaults : Prop :=
  ∀ (s : State) (w : Int), s.status = .running → s.memRead s.pc = .ok w → w < 0 →
    step s = .next { s with status := .faulted, fault := some { cause := .unknownOpcode, pc := s.pc, info := w } }

/-- A used mode digit of 3 to 9 faults with InvalidMode and the lowest such parameter index, whatever the operand words
and the break policy are.  The spec's own choice (D6, D12; log 13, 14). -/
def Obligations.InvalidModeFaultsBeforeOperands : Prop :=
  ∀ (s : State) (w : Int) (op : Opcode) (i : Nat), s.status = .running → s.memRead s.pc = .ok w → 0 ≤ w →
    w.toNat % 100 = op.value → i < op.arity → 2 < digit (2 + i) w.toNat →
    (∀ j < i, digit (2 + j) w.toNat ≤ 2) →
    step s = .next { s with status := .faulted, fault := some { cause := .invalidMode, pc := s.pc, info := i } }

/-! ### Memory and construction -/

/-- A MemRead returns the value of the latest MemWrite to that address, and a MemWrite changes no other address
(20_memory.md R62, R73).  Over canonical memories, the only ones a run reaches (EveryStepKeepsInvariant). -/
def Obligations.ReadAfterWriteAndElsewhere : Prop :=
  ∀ (s t : State) (a v : Int), Memory.wf s.mem → s.memWrite a v = .ok t →
    t.memRead a = .ok v ∧ ∀ b, b ≠ a → t.memRead b = s.memRead b

/-- After construction, memory has CAPACITY cells with indices 0 to CAPACITY - 1: cell i holds PROGRAM[i], or 0 past the
program; an address outside them faults with MemoryFault and that address (10_state.md R32, 20_memory.md R61). -/
def Obligations.ConstructedMemoryHoldsProgramThenZeros : Prop :=
  ∀ (cfg : Config) (program : List Int) (id : List Char) (policy : BitVec 10) (s : State),
    State.construct cfg program id policy = .ok s → ∀ a : Int,
      s.memRead a = if 0 ≤ a ∧ a < (cfg.capacity : Int) then .ok (program.getD a.toNat 0)
                    else .error { cause := .memoryFault, info := a }

/-- Construction succeeds exactly when the parameters meet R8 and R9 and the program fits and is made of Words, and then
every element of the state has its reset value (70_reset_and_hazards.md R260, 10_state.md R32).  The spec's own choices:
the refusal of a bad program or CAPACITY (D20), pc = 0 and rb = 0 (D9, D10; log 16).  The model's: that a bounded
WORD_BITS below 64 is refused too (log 27), the empty queues and calls (log 3). -/
def Obligations.ConstructionChecksAndResetValues : Prop :=
  ∀ (cfg : Config) (program : List Int) (id : List Char) (policy : BitVec 10),
    ((∃ s, State.construct cfg program id policy = .ok s) ↔
      (1 ≤ cfg.capacity ∧ program.length ≤ cfg.capacity ∧
        (∀ v ∈ program, cfg.wordBits.inRange v = true) ∧
        (∀ n, cfg.wordBits = .bounded n → 64 ≤ n ∧ (cfg.capacity : Int) + 3 ≤ 2 ^ (n - 1) - 1))) ∧
    ∀ s, State.construct cfg program id policy = .ok s →
      (∀ a : Int, 0 ≤ a → a < (cfg.capacity : Int) → s.memRead a = .ok (program.getD a.toNat 0)) ∧
      s.cfg = cfg ∧ s.pc = 0 ∧ s.rb = 0 ∧ s.status = .running ∧ s.yieldMarker = .none ∧ s.resumeGrant = false ∧
      s.breakPolicy = policy ∧ s.fault = none ∧ s.id = id ∧ s.inQ = [] ∧ s.outQ = [] ∧ s.calls = []

/-! ### Operand resolution -/

/-- What resolving one parameter does in each mode, before the rest: POSITION reads the cell at the raw operand and moves
the destination there; IMMEDIATE is the raw operand and leaves the destination; RELATIVE reads the cell at the raw
operand plus rb and moves the destination there (40_operand_addressing.md R122, R123, R124). -/
def Obligations.ParameterModesResolve : Prop :=
  ∀ (s : State) (l : Latches) (raw : Int) (ps : List Param),
    (s.resolveFrom l ({ mode := .position, raw := raw } :: ps) =
      match s.memRead raw with
      | .ok v => s.resolveFrom { val := l.val ++ [v], dest := some raw } ps
      | .error t => .error t) ∧
    (s.resolveFrom l ({ mode := .immediate, raw := raw } :: ps) =
      s.resolveFrom { val := l.val ++ [raw], dest := l.dest } ps) ∧
    (s.resolveFrom l ({ mode := .relative, raw := raw } :: ps) =
      match s.memRead (raw + s.rb) with
      | .ok v => s.resolveFrom { val := l.val ++ [v], dest := some (raw + s.rb) } ps
      | .error t => .error t)

/-- After resolution there is one value a parameter, each that parameter's value, and the destination is the effective
address of the last POSITION or RELATIVE parameter, absent if there is none (40_operand_addressing.md R125, R127; that
the latch starts each step empty is the spec's own choice D8, log 13). -/
def Obligations.DestinationIsLastAddressedParameter : Prop :=
  ∀ (s : State) (ps : List Param) (l : Latches), s.resolve ps = .ok l →
    ps.map s.value = l.val.map Except.ok ∧ l.dest = (ps.filterMap s.effAddr).getLast?

/-- The address a writer stores to has been read in the same step, so the write never faults (40_operand_addressing.md
R126, 20_memory.md R62). -/
def Obligations.WriteAddressAlreadyRead : Prop :=
  ∀ (s : State) (ps : List Param) (l : Latches) (d v : Int), s.resolve ps = .ok l → l.dest = some d →
    ∃ t, s.memWrite d v = .ok t

/-! ### What each instruction does -/

/-- ADD, in every operand form with a destination and a result that is a Word: `Memory[dest] = p0 + p1`, pc advances by 4,
and nothing else changes (42_alu.md R170, 41_execution_cycle.md R150). -/
def Obligations.AddStoresSum : Prop :=
  ∀ (p0 p1 p2 : Param) (s : State) (a b c d : Int),
    s.value p0 = .ok a → s.value p1 = .ok b → s.value p2 = .ok c → s.destOf [p0, p1, p2] = some d →
    s.cfg.wordBits.inRange (a + b) = true →
    exec (.add p0 p1 p2) s = .next { s with mem := s.mem.write d.toNat (a + b), pc := s.pc + 4 }

/-- MUL, likewise: `Memory[dest] = p0 * p1`, the full integer product (42_alu.md R171). -/
def Obligations.MulStoresProduct : Prop :=
  ∀ (p0 p1 p2 : Param) (s : State) (a b c d : Int),
    s.value p0 = .ok a → s.value p1 = .ok b → s.value p2 = .ok c → s.destOf [p0, p1, p2] = some d →
    s.cfg.wordBits.inRange (a * b) = true →
    exec (.mul p0 p1 p2) s = .next { s with mem := s.mem.write d.toNat (a * b), pc := s.pc + 4 }

/-- LT, in every operand form with a destination: `Memory[dest] = 1 if p0 < p1 else 0`, the signed order; it cannot overflow
(42_alu.md R172, R174). -/
def Obligations.LtStoresSignedComparison : Prop :=
  ∀ (p0 p1 p2 : Param) (s : State) (a b c d : Int),
    s.value p0 = .ok a → s.value p1 = .ok b → s.value p2 = .ok c → s.destOf [p0, p1, p2] = some d →
    exec (.lt p0 p1 p2) s = .next { s with mem := s.mem.write d.toNat (if a < b then 1 else 0), pc := s.pc + 4 }

/-- EQ, likewise: `Memory[dest] = 1 if p0 == p1 else 0` (42_alu.md R173). -/
def Obligations.EqStoresEquality : Prop :=
  ∀ (p0 p1 p2 : Param) (s : State) (a b c d : Int),
    s.value p0 = .ok a → s.value p1 = .ok b → s.value p2 = .ok c → s.destOf [p0, p1, p2] = some d →
    exec (.eq p0 p1 p2) s = .next { s with mem := s.mem.write d.toNat (if a = b then 1 else 0), pc := s.pc + 4 }

/-- JNZ in every operand form: pc becomes the target value if the condition is not 0, else pc + 3; nothing else changes,
and the target is not checked (43_branch.md R190; the unchecked target is the spec's own reading D13, log 15). -/
def Obligations.JnzSetsPc : Prop :=
  ∀ (p0 p1 : Param) (s : State) (c a : Int), s.value p0 = .ok c → s.value p1 = .ok a →
    exec (.jnz p0 p1) s = .next { s with pc := if c ≠ 0 then a else s.pc + 3 }

/-- JZ, likewise, when the condition is 0 (43_branch.md R191). -/
def Obligations.JzSetsPc : Prop :=
  ∀ (p0 p1 : Param) (s : State) (c a : Int), s.value p0 = .ok c → s.value p1 = .ok a →
    exec (.jz p0 p1) s = .next { s with pc := if c = 0 then a else s.pc + 3 }

/-- IN with an addressed parameter and a value waiting: the front value leaves the queue and is stored, pc advances by 2
(44_io.md R200, 20_memory.md R76). -/
def Obligations.InPopsFrontIntoDestination : Prop :=
  ∀ (p0 : Param) (s : State) (c d v : Int) (q : List Int),
    s.value p0 = .ok c → s.effAddr p0 = some d → s.inQ = v :: q →
    exec (.inp p0) s = .next { s with inQ := q, mem := s.mem.write d.toNat v, pc := s.pc + 2 }

/-- OUT in every operand form: the value goes to the back of the output queue, pc advances by 2, and the engine suspends
with the LATE marker (44_io.md R201, 41_execution_cycle.md R151). -/
def Obligations.OutPushesThenSuspendsLate : Prop :=
  ∀ (p0 : Param) (s : State) (v : Int), s.value p0 = .ok v →
    exec (.out p0) s =
      .next { s with outQ := s.outQ ++ [v], pc := s.pc + 2, status := .suspended, yieldMarker := .late }

/-- RB in every operand form whose sum is not negative and is a Word: rb becomes the exact sum, pc advances by 2
(45_base_and_halt.md R210). -/
def Obligations.RbAddsToRelativeBase : Prop :=
  ∀ (p0 : Param) (s : State) (v : Int), s.value p0 = .ok v → 0 ≤ s.rb + v →
    s.cfg.wordBits.inRange (s.rb + v) = true →
    exec (.rb p0) s = .next { s with rb := s.rb + v, pc := s.pc + 2 }

/-- HALT, in every state: status becomes Halted and nothing else changes; pc keeps the HALT's own address
(45_base_and_halt.md R211, 41_execution_cycle.md R149). -/
def Obligations.HaltKeepsPc : Prop :=
  ∀ s : State, exec .halt s = .next { s with status := .halted }

/-- For an ADD, MUL, LT or EQ with a POSITION destination whose operands and destination can be read and, for ADD and MUL,
whose result is a Word: the destination cell holds the operation on the two values, and no other cell changes
(42_alu.md R177).  Over canonical memories, the only ones a run reaches (EveryStepKeepsInvariant). -/
def Obligations.AluWithPositionDestinationWritesOneCell : Prop :=
  ∀ (p0 p1 : Param) (d : Int) (s : State) (a b c : Int) (i : Instr) (r : Int),
    Memory.wf s.mem → s.value p0 = .ok a → s.value p1 = .ok b → s.memRead d = .ok c →
    ((i = .add p0 p1 { mode := .position, raw := d } ∧ r = a + b ∧ s.cfg.wordBits.inRange r = true) ∨
     (i = .mul p0 p1 { mode := .position, raw := d } ∧ r = a * b ∧ s.cfg.wordBits.inRange r = true) ∨
     (i = .lt p0 p1 { mode := .position, raw := d } ∧ r = if a < b then 1 else 0) ∨
     (i = .eq p0 p1 { mode := .position, raw := d } ∧ r = if a = b then 1 else 0)) →
    ∃ t, exec i s = .next t ∧ t.memRead d = .ok r ∧ ∀ e, e ≠ d → t.memRead e = s.memRead e

/-! ### Where the forms fault -/

/-- An operand that cannot be read faults: the fault of operand resolution is taken, for every instruction, and nothing but
status and the fault record changes (60_exceptions.md R221, R228). -/
def Obligations.OperandFaultIsTaken : Prop :=
  ∀ (i : Instr) (s : State) (t : Trap), s.resolve i.params = .error t →
    exec i s = .next { s with status := .faulted, fault := some { cause := t.cause, pc := s.pc, info := t.info } }

/-- A writer with IMMEDIATE parameters only has no destination: it faults with NoDestination, before the queue or the result
is looked at, and changes nothing else.  The spec's own choice (D8, D12, D25; log 13, 14). -/
def Obligations.AllImmediateWriterFaults : Prop :=
  ∀ (i : Instr) (s : State), i.opcode.writes = true → (∀ p ∈ i.params, p.mode = .immediate) →
    exec i s = .next { s with status := .faulted, fault := some { cause := .noDestination, pc := s.pc, info := 0 } }

/-- ADD, MUL and RB with an exact result outside the Word range fault with ArithmeticOverflow and that result, and change
nothing else.  The spec's own choice (D3; log 13). -/
def Obligations.OverflowFaultsAndNeverWraps : Prop :=
  (∀ (p0 p1 p2 : Param) (s : State) (a b c d : Int),
    s.value p0 = .ok a → s.value p1 = .ok b → s.value p2 = .ok c → s.destOf [p0, p1, p2] = some d →
    (s.cfg.wordBits.inRange (a + b) = false →
      exec (.add p0 p1 p2) s = .next { s with
        status := .faulted, fault := some { cause := .arithmeticOverflow, pc := s.pc, info := a + b } }) ∧
    (s.cfg.wordBits.inRange (a * b) = false →
      exec (.mul p0 p1 p2) s = .next { s with
        status := .faulted, fault := some { cause := .arithmeticOverflow, pc := s.pc, info := a * b } })) ∧
  (∀ (p0 : Param) (s : State) (v : Int), s.value p0 = .ok v → 0 ≤ s.rb + v →
    s.cfg.wordBits.inRange (s.rb + v) = false →
    exec (.rb p0) s = .next { s with
      status := .faulted, fault := some { cause := .arithmeticOverflow, pc := s.pc, info := s.rb + v } })

/-- IN with an addressed parameter and an empty queue faults with EmptyInputQueue before any memory changes
(60_exceptions.md R223; info 0 is the spec's own, log 18). -/
def Obligations.InOnEmptyQueueFaults : Prop :=
  ∀ (p0 : Param) (s : State) (c d : Int), s.value p0 = .ok c → s.effAddr p0 = some d → s.inQ = [] →
    exec (.inp p0) s = .next { s with
      status := .faulted, fault := some { cause := .emptyInputQueue, pc := s.pc, info := 0 } }

/-- RB with a negative sum faults with InvalidRelativeBase, reports the rejected value, and keeps rb (60_exceptions.md R224;
that rb is kept is the spec's own D26). -/
def Obligations.RbToNegativeBaseFaults : Prop :=
  ∀ (p0 : Param) (s : State) (v : Int), s.value p0 = .ok v → s.rb + v < 0 →
    exec (.rb p0) s = .next { s with
      status := .faulted, fault := some { cause := .invalidRelativeBase, pc := s.pc, info := s.rb + v } }

/-! ### Frames -/

/-- ADD, MUL, LT and EQ: when exec answers a next state, every address but the resolved destination reads as before, and
every register, queue and control field but pc is unchanged; status and the fault record change only by a fault, which
changes nothing else (42_alu.md R170 to R173, 60_exceptions.md R228). -/
def Obligations.AluFrame : Prop :=
  ∀ (p0 p1 p2 : Param) (s t : State) (i : Instr),
    (i = .add p0 p1 p2 ∨ i = .mul p0 p1 p2 ∨ i = .lt p0 p1 p2 ∨ i = .eq p0 p1 p2) → exec i s = .next t →
    (∀ b, (∀ l, s.resolve [p0, p1, p2] = .ok l → l.dest ≠ some b) → t.memRead b = s.memRead b) ∧
    t.rb = s.rb ∧ t.cfg = s.cfg ∧ t.yieldMarker = s.yieldMarker ∧ t.resumeGrant = s.resumeGrant ∧
    t.breakPolicy = s.breakPolicy ∧ t.id = s.id ∧ t.inQ = s.inQ ∧ t.outQ = s.outQ ∧ t.calls = s.calls ∧
    ((t.status = s.status ∧ t.fault = s.fault) ∨ ∃ tr, t = s.takeFault tr)

/-- IN: likewise, and the input queue is popped unless it faults (44_io.md R200). -/
def Obligations.InFrame : Prop :=
  ∀ (p0 : Param) (s t : State), exec (.inp p0) s = .next t →
    (∀ b, (∀ l, s.resolve [p0] = .ok l → l.dest ≠ some b) → t.memRead b = s.memRead b) ∧
    t.rb = s.rb ∧ t.cfg = s.cfg ∧ t.yieldMarker = s.yieldMarker ∧ t.resumeGrant = s.resumeGrant ∧
    t.breakPolicy = s.breakPolicy ∧ t.id = s.id ∧ t.outQ = s.outQ ∧ t.calls = s.calls ∧
    ((t.status = s.status ∧ t.fault = s.fault ∧ t.inQ = s.inQ.tail) ∨ ∃ tr, t = s.takeFault tr)

/-- JNZ, JZ, OUT, RB and HALT store nothing: every address reads as before, and the parameters, the break policy, the
label, the grant, the input queue and the calls are unchanged.  rb changes only by RB; the output queue and the yield
marker only by OUT; status only by OUT, by HALT or by a fault; the fault record only by a fault; pc not by HALT or a
fault (43_branch.md, 44_io.md R201, 45_base_and_halt.md). -/
def Obligations.NonStoringFrame : Prop :=
  ∀ (i : Instr) (s t : State), i.opcode.writes = false → exec i s = .next t →
    (∀ b, t.memRead b = s.memRead b) ∧ t.cfg = s.cfg ∧ t.breakPolicy = s.breakPolicy ∧ t.id = s.id ∧
    t.resumeGrant = s.resumeGrant ∧ t.inQ = s.inQ ∧ t.calls = s.calls ∧
    (i.opcode ≠ .rb → t.rb = s.rb) ∧
    (i.opcode ≠ .out → t.outQ = s.outQ ∧ t.yieldMarker = s.yieldMarker) ∧
    (i.opcode = .halt → t.pc = s.pc) ∧
    ((t.fault = s.fault ∧ (i.opcode ≠ .out → i.opcode ≠ .halt → t.status = s.status)) ∨ ∃ tr, t = s.takeFault tr)

/-! ### Fetch, the policy check and the step -/

/-- A STEP RUNS THE DECODED INSTRUCTION: when the words from pc on decode to an instruction, the step of a Running state
takes the fault of its operands if they cannot be resolved; otherwise it yields early, if the instruction's category
other than OUT is in the policy and no grant is held; otherwise it is exec of the instruction with the grant cleared
(41_execution_cycle.md R158). -/
def Obligations.StepRunsDecodedInstruction : Prop :=
  ∀ (s : State) (i : Instr) (rest : List Int), s.status = .running →
    decodeWords (s.wordsAt s.pc 4) = .ok (i, rest) →
    step s =
      match s.resolve i.params with
      | .error t =>
        .next { s with status := .faulted, fault := some { cause := t.cause, pc := s.pc, info := t.info } }
      | .ok _ =>
        if i.opcode ≠ .out ∧ s.breakPolicy.getLsbD (policyBit i.opcode) = true ∧ s.resumeGrant = false then
          .next { s with status := .suspended, yieldMarker := .early }
        else exec i { s with resumeGrant := false }

/-- A fetch outside memory faults with MemoryFault at that pc, whatever the policy (41_execution_cycle.md R146). -/
def Obligations.FetchOutsideMemoryFaults : Prop :=
  ∀ s : State, s.status = .running → (s.pc < 0 ∨ (s.cfg.capacity : Int) ≤ s.pc) →
    step s = .next { s with status := .faulted, fault := some { cause := .memoryFault, pc := s.pc, info := s.pc } }

/-- Parameters are resolved one at a time, in order: if operand word k is there and the value of parameter k cannot be
read, every parameter before it being readable, that fault is the step's, whatever stands, or is missing, after operand
word k, and whatever the policy (40_operand_addressing.md R120, 60_exceptions.md R231). -/
def Obligations.FirstOperandFaultWins : Prop :=
  ∀ (s : State) (w raw : Int) (h : Head) (k : Nat) (t : Trap), s.status = .running → s.memRead s.pc = .ok w →
    decodeOpword w = .ok h → k < h.op.arity →
    (∀ j < k, ∃ r v, s.memRead (s.pc + 1 + j) = .ok r ∧ s.value { mode := h.mode j, raw := r } = .ok v) →
    s.memRead (s.pc + 1 + k) = .ok raw → s.value { mode := h.mode k, raw := raw } = .error t →
    step s = .next { s with status := .faulted, fault := some { cause := t.cause, pc := s.pc, info := t.info } }

/-- An operand word past the end of memory faults with MemoryFault and its address when every parameter before it was
resolved (40_operand_addressing.md R121). -/
def Obligations.MissingOperandWordFaults : Prop :=
  ∀ (s : State) (w : Int) (h : Head) (k : Nat), s.status = .running → s.memRead s.pc = .ok w →
    decodeOpword w = .ok h → k < h.op.arity → (s.cfg.capacity : Int) ≤ s.pc + 1 + k →
    (∀ j < k, ∃ raw v, s.memRead (s.pc + 1 + j) = .ok raw ∧
      s.value { mode := h.mode j, raw := raw } = .ok v) →
    step s = .next { s with
      status := .faulted, fault := some { cause := .memoryFault, pc := s.pc, info := s.pc + 1 + k } }

/-- A fetched OUT, whatever the break policy and the grant: it never yields early, it pushes, and the run ends in the late
yield (44_io.md R201). -/
def Obligations.OutAlwaysYieldsLateNeverEarly : Prop :=
  ∀ (s : State) (p0 : Param) (v : Int), s.status = .running → s.fetchInstr = .ok (.out p0) → s.value p0 = .ok v →
    step s = .next { s with
      outQ := s.outQ ++ [v], pc := s.pc + 2, status := .suspended, yieldMarker := .late, resumeGrant := false }

/-- A gated instruction runs exactly once per arrival: the first step at it only suspends; the host's next RUN resumes and
the step after it runs the very same instruction, with the state of the arrival and the queues of the new RUN
(41_execution_cycle.md R141, R147, R154).  The values the RUN brings are Words (R47).  That the
entry of a RUN is a step of its own that takes the RUN off a list is the model's form (log 5), and so is how a RUN names
its queues (log 6). -/
def Obligations.GatedInstructionRunsOnce : Prop :=
  ∀ (s : State) (i : Instr) (c : RunCall) (cs : List RunCall), s.status = .running → s.yieldMarker = .none →
    s.resumeGrant = false → s.fetchInstr = .ok i → i.opcode ≠ .out →
    s.breakPolicy.getLsbD (policyBit i.opcode) = true →
    s.calls = c :: cs → c.wordsOnly s.cfg.wordBits = true →
    ∃ s1 s2, step s = .next s1 ∧ s1 = { s with status := .suspended, yieldMarker := .early } ∧
      step s1 = .next s2 ∧
      step s2 = exec i { s with calls := cs, inQ := c.inQ.resolve s.inQ, outQ := c.outQ.resolve s.outQ }

/-- Resuming from a late yield: on any Suspended state with the LATE marker the entry action is `yield_marker <- NONE;
status <- Running` and nothing else but the RUN's queues, pc as it was; and after a fetched OUT the RUN leaves the
instance Running at the pc past the OUT, with one value pushed, so the OUT is not executed again
(41_execution_cycle.md R142).  The values the RUN brings are Words (R47); how a RUN names its queues is the model's form
(log 6). -/
def Obligations.LateResumeRunsOnAtSamePc : Prop :=
  (∀ (s : State) (c : RunCall), s.status = .suspended → s.yieldMarker = .late →
    c.wordsOnly s.cfg.wordBits = true →
    s.runEntry c = .next { s with
      yieldMarker := .none, status := .running, inQ := c.inQ.resolve s.inQ, outQ := c.outQ.resolve s.outQ }) ∧
  (∀ (s : State) (p0 : Param) (v : Int) (c : RunCall), s.status = .running → s.fetchInstr = .ok (.out p0) →
    s.value p0 = .ok v → c.wordsOnly s.cfg.wordBits = true →
    ∃ s1 s2, step s = .next s1 ∧ s1.status = .suspended ∧ s1.yieldMarker = .late ∧ s1.outQ = s.outQ ++ [v] ∧
      s1.runEntry c = .next s2 ∧
      s2 = { s with
        pc := s.pc + 2, status := .running, yieldMarker := .none, resumeGrant := false,
        inQ := c.inQ.resolve s.inQ, outQ := c.outQ.resolve (s.outQ ++ [v]) })

/-- pc after an instruction that does not fault: past the instruction's words, unless it is a jump or HALT; HALT keeps it
(41_execution_cycle.md R149, R150). -/
def Obligations.PcAdvancesByLength : Prop :=
  ∀ (s t : State) (i : Instr), exec i s = .next t → (∀ tr, t ≠ s.takeFault tr) →
    (i.opcode ≠ .jnz → i.opcode ≠ .jz → i.opcode ≠ .halt → t.pc = s.pc + (i.opcode.length : Int)) ∧
    (i.opcode = .halt → t.pc = s.pc)

/-- A taken JNZ or JZ to a target outside memory completes, and the very next step faults with MemoryFault at the target,
reporting it as the pc (43_branch.md R190, R191).  The spec's own reading (D13; log 15). -/
def Obligations.BranchOutsideFaultsAtNextFetch : Prop :=
  ∀ (s : State) (p0 p1 : Param) (c a : Int) (i : Instr), s.status = .running → s.value p0 = .ok c →
    s.value p1 = .ok a → ((i = .jnz p0 p1 ∧ c ≠ 0) ∨ (i = .jz p0 p1 ∧ c = 0)) →
    (a < 0 ∨ (s.cfg.capacity : Int) ≤ a) →
    ∃ t u, exec i s = .next t ∧ step t = .next u ∧ u.status = .faulted ∧
      u.fault = some { cause := .memoryFault, pc := a, info := a }

/-! ### Rules of the whole machine -/

/-- status makes only the transitions of the table of 10_state.md R37, each for its cause: Running to Suspended by an early
yield of a gated fetched instruction other than OUT, or after OUT; Running to Halted by HALT; Running to Faulted by a
fault; Suspended to Running by the host's RUN. -/
def Obligations.StatusTransitions : Prop :=
  ∀ (s t : State), step s = .next t → t.status ≠ s.status →
    (s.status = .running ∧ t.status = .suspended ∧ ∃ i, s.fetchInstr = .ok i ∧
      ((t.yieldMarker = .early ∧ i.opcode ≠ .out ∧ s.breakPolicy.getLsbD (policyBit i.opcode) = true ∧
          s.resumeGrant = false) ∨
       (t.yieldMarker = .late ∧ i.opcode = .out))) ∨
    (s.status = .running ∧ t.status = .halted ∧ s.fetchInstr = .ok .halt) ∨
    (s.status = .running ∧ t.status = .faulted ∧ ∃ r, t.fault = some r ∧ r.pc = s.pc) ∨
    (s.status = .suspended ∧ t.status = .running ∧ ∃ c cs, s.calls = c :: cs ∧ t.calls = cs)

/-- CAPACITY, and with it WORD_BITS, the break policy and the label, never change after construction (20_memory.md R63;
10_state.md R40, R42). -/
def Obligations.ParametersNeverChange : Prop :=
  ∀ (s t : State), step s = .next t →
    t.cfg = s.cfg ∧ t.breakPolicy = s.breakPolicy ∧ t.id = s.id

/-- The label ID has no effect on any step: steps of two states that differ only in it answer alike, up to it
(10_state.md R42). -/
def Obligations.LabelHasNoEffect : Prop :=
  ∀ (s : State) (x : List Char),
    step { s with id := x } =
      match step s with
      | .next t => .next { t with id := x }
      | .fault f => .fault f
      | .refused r => .refused r

/-- Only IN takes from the input queue, only its front; only OUT adds to the output queue, only at the back; only RB writes
rb; only the five writers change memory (10_state.md R35, R46; 40_operand_addressing.md R127). -/
def Obligations.EachStateWrittenOnlyByItsInstructions : Prop :=
  ∀ (s t : State), s.status = .running → step s = .next t →
    (t.inQ ≠ s.inQ → ∃ p0 v, s.fetchInstr = .ok (.inp p0) ∧ s.inQ = v :: t.inQ) ∧
    (t.outQ ≠ s.outQ → ∃ p0 v, s.fetchInstr = .ok (.out p0) ∧ t.outQ = s.outQ ++ [v]) ∧
    (t.rb ≠ s.rb → ∃ p0, s.fetchInstr = .ok (.rb p0)) ∧
    (t.mem ≠ s.mem → ∃ i, s.fetchInstr = .ok i ∧ i.opcode.writes = true)

/-- Faults are precise: a step that takes a fault changes nothing but status, the fault record and perhaps resume_grant,
and the record's pc is that of the faulting step (60_exceptions.md R228). -/
def Obligations.FaultsArePrecise : Prop :=
  ∀ (s t : State), s.status = .running → step s = .next t → t.status = .faulted →
    ∃ r, r.pc = s.pc ∧ t = { s with status := .faulted, fault := some r, resumeGrant := t.resumeGrant }

/-- Halted and Faulted are for good: the engine takes no step, and every RUN returns that status at once and changes nothing
(60_exceptions.md R229; what such a RUN does is the spec's own D14).  The model's `step` takes the host's next RUN off the
list and changes nothing else; that list is the model's form (log 5). -/
def Obligations.TerminalStatusIsPermanent : Prop :=
  ∀ s : State, (s.status = .halted ∨ s.status = .faulted) →
    step s = .next { s with calls := s.calls.tail } ∧
    ∀ (n : Nat) (c : RunCall), runFor n c s = some (s.status, s)

/-- The step of a Running state always answers a next state: no instruction and no word in memory stops the machine, a
fault being a next state too (41_execution_cycle.md R159; log 9). -/
def Obligations.RunningStateAlwaysSteps : Prop :=
  ∀ s : State, s.status = .running → ∃ t, step s = .next t

/-- From a state that meets the invariant, step never stops with a fault, and it refuses only a RUN that hands the engine a
value that is not a Word (the spec's own D20; log 7, 8). -/
def Obligations.StepRefusesOnlyBadChannelValues : Prop :=
  ∀ s : State, s.Inv → (∀ f, step s ≠ .fault f) ∧
    ∀ r, step s = .refused r → r = .channelValueNotWord ∧ s.status = .suspended ∧
      ∃ c cs, s.calls = c :: cs ∧ ∃ v, (v ∈ c.inQ.values ∨ v ∈ c.outQ.values) ∧ s.cfg.wordBits.inRange v = false

/-- The fetch gives only well-formed instructions: their operand words are Words of the instance (30_encoding.md R98,
10_state.md R31). -/
def Obligations.FetchedInstructionIsWellFormed : Prop :=
  ∀ (s : State) (i : Instr), s.Inv → s.fetchInstr = .ok i → i.wf s.cfg.wordBits = true

/-- Every step keeps the invariant: canonical memory of mapped Words, pc and rb Words, rb not negative, the yield marker
standing exactly while Suspended, the fault record exactly while Faulted, Words in the queues (10_state.md R31 to R41). -/
def Obligations.EveryStepKeepsInvariant : Prop :=
  ∀ (s t : State), s.Inv → step s = .next t → t.Inv

/-- The reset state meets the invariant (its parameters are the model's choice, log 2). -/
def Obligations.ResetMeetsInvariant : Prop := State.reset.Inv

/-- Every constructed instance meets the invariant, for every parameter and program (70_reset_and_hazards.md R260). -/
def Obligations.ConstructedInstanceMeetsInvariant : Prop :=
  ∀ (cfg : Config) (program : List Int) (id : List Char) (policy : BitVec 10) (s : State),
    State.construct cfg program id policy = .ok s → s.Inv

/-! ### Runs -/

/-- A RUN that returns has pushed at most one value: exactly one, at the back, when it ends in a late yield, and none when
it ends in an early yield, a halt or a fault (41_execution_cycle.md R153).  How a RUN names its queues is the
model's form (log 6). -/
def Obligations.RunPushesAtMostOneValue : Prop :=
  ∀ (n : Nat) (c : RunCall) (s t : State) (st : Status), (s.status = .running ∨ s.status = .suspended) →
    runFor n c s = some (st, t) →
    t.status = st ∧
    ((st = .suspended ∧ t.yieldMarker = .late ∧ ∃ v, t.outQ = c.outQ.resolve s.outQ ++ [v]) ∨
     (t.outQ = c.outQ.resolve s.outQ ∧
       ((st = .suspended ∧ t.yieldMarker = .early) ∨ st = .halted ∨ st = .faulted)))

/-- What a RUN returns is unique: looking further never changes it (41_execution_cycle.md R159). -/
def Obligations.RunResultIsUnique : Prop :=
  ∀ (c : RunCall) (s t1 t2 : State) (st1 st2 : Status), RunReturns c s st1 t1 → RunReturns c s st2 t2 →
    st1 = st2 ∧ t1 = t2

/-- With all nine categories other than OUT in the policy, a run executes at most one instruction other than OUT: a step
without the grant is a fault, or the early yield, or a fetched OUT, which ends the run too; and the step after a step
that leaves the engine Running (one with the grant) is again one of these (60_exceptions.md R239).  R239 says "at most one
instruction", while by R147 and R151 a resumed run may execute the gated instruction and then an OUT: log 28. -/
def Obligations.FullPolicySingleSteps : Prop :=
  ∀ (s t : State), s.status = .running → (∀ op : Opcode, op ≠ .out → s.breakPolicy.getLsbD (policyBit op) = true) →
    step s = .next t →
    (s.resumeGrant = false →
      (∃ tr, t = s.takeFault tr) ∨ t = { s with status := .suspended, yieldMarker := .early } ∨
      (∃ p0 v, s.fetchInstr = .ok (.out p0) ∧
        t = { s with outQ := s.outQ ++ [v], pc := s.pc + 2, status := .suspended, yieldMarker := .late })) ∧
    (t.status = .running → ∀ u, step t = .next u →
      (∃ tr, u = t.takeFault tr) ∨ u = { t with status := .suspended, yieldMarker := .early } ∨
      (∃ p0 v, t.fetchInstr = .ok (.out p0) ∧
        u = { t with outQ := t.outQ ++ [v], pc := t.pc + 2, status := .suspended, yieldMarker := .late }))

/-! ### The host's views -/

/-- The diagnostic window of a fault lies within memory and within 7 cells of the reported pc; it is empty exactly when no
cell is so near; and the slice is the cells of the window in order (60_exceptions.md R230; the empty case is the
spec's own D24). -/
def Obligations.DiagnosticWindowAroundFault : Prop :=
  ∀ (s : State) (r : FaultRecord), s.status = .faulted → s.fault = some r →
    (s.diagWindow = none ↔ ∀ a : Int, 0 ≤ a → a < (s.cfg.capacity : Int) → a < r.pc - 7 ∨ r.pc + 7 < a) ∧
    ∀ lo hi, s.diagWindow = some (lo, hi) →
      (∀ a : Int, lo ≤ a ∧ a ≤ hi ↔ 0 ≤ a ∧ a < (s.cfg.capacity : Int) ∧ r.pc - 7 ≤ a ∧ a ≤ r.pc + 7) ∧
      (s.diagCells.length : Int) = hi - lo + 1 ∧
      ∀ k : Nat, (k : Int) ≤ hi - lo → s.inspect (lo + k) = s.diagCells[k]?

/-- One whole run of a system changes at most one instance, and the number of instances and queues stays: no instance
touches another's memory or registers (20_memory.md R72, 60_exceptions.md R238). -/
def Obligations.SystemRunTouchesOneInstance : Prop :=
  ∀ (y z : System), System.RunsTo y z →
    z.queues.length = y.queues.length ∧ z.instances.length = y.instances.length ∧
    ∃ k : Nat, ∀ j : Nat, j ≠ k → z.instances[j]? = y.instances[j]?

/-! ### Ranges and numberings written out -/

/-- `InRange(v)` with its bounds written out: for a bounded WORD_BITS of n bits, `-2^(n-1) ≤ v ≤ 2^(n-1) - 1`; for
UNBOUNDED, every integer (00_scope.md R11, the spec's own D2).  An ADD whose exact sum is above or below these bounds
faults, and one whose sum is on or between them stores it. -/
def Obligations.WordRangeHasItsBounds : Prop :=
  (∀ (n : Nat) (v : Int), (WordBits.bounded n).inRange v = true ↔ -(2 ^ (n - 1)) ≤ v ∧ v ≤ 2 ^ (n - 1) - 1) ∧
  (∀ v : Int, WordBits.unbounded.inRange v = true) ∧
  (∀ (p0 p1 p2 : Param) (s : State) (n : Nat) (a b c d : Int), s.cfg.wordBits = .bounded n →
    s.value p0 = .ok a → s.value p1 = .ok b → s.value p2 = .ok c → s.destOf [p0, p1, p2] = some d →
    exec (.add p0 p1 p2) s =
      if -(2 ^ (n - 1)) ≤ a + b ∧ a + b ≤ 2 ^ (n - 1) - 1 then
        .next { s with mem := s.mem.write d.toNat (a + b), pc := s.pc + 4 }
      else .next { s with
        status := .faulted, fault := some { cause := .arithmeticOverflow, pc := s.pc, info := a + b } })

/-- The break policy with its bit numbers written out (10_state.md R40; the numbering is the spec's own D15, log 17): 0 ADD,
1 MUL, 2 IN, 3 OUT, 4 JNZ, 5 JZ, 6 LT, 7 EQ, 8 RB, 9 HALT.  Without the grant, a fetched instruction other than OUT is held
back exactly when its bit is set; OUT runs whatever bit 3 is (41_execution_cycle.md R147). -/
def Obligations.BreakPolicyBitsGateTheirCategories : Prop :=
  [Opcode.add, .mul, .inp, .out, .jnz, .jz, .lt, .eq, .rb, .halt].map policyBit = [0, 1, 2, 3, 4, 5, 6, 7, 8, 9] ∧
  ∀ (s : State) (i : Instr), s.status = .running → s.resumeGrant = false → s.fetchInstr = .ok i →
    (∀ k : Nat,
      ((i.opcode = .add ∧ k = 0) ∨ (i.opcode = .mul ∧ k = 1) ∨ (i.opcode = .inp ∧ k = 2) ∨
        (i.opcode = .jnz ∧ k = 4) ∨ (i.opcode = .jz ∧ k = 5) ∨ (i.opcode = .lt ∧ k = 6) ∨
        (i.opcode = .eq ∧ k = 7) ∨ (i.opcode = .rb ∧ k = 8) ∨ (i.opcode = .halt ∧ k = 9)) →
      step s = if s.breakPolicy.getLsbD k then .next { s with status := .suspended, yieldMarker := .early }
               else exec i s) ∧
    (i.opcode = .out → step s = exec i s)
end

