-- ==== Sys2Proof/Laws/Config.lean ====
section
/-! SUPPORT. The parameters of an instance, written out. -/

namespace Sys2Proof

/-- The Words of a bounded width (spec/00_scope.md R11). -/
theorem WordBits.inRange_bounded_iff (n : Nat) (v : Int) :
    (WordBits.bounded n).inRange v = true ↔ -(2 ^ (n - 1) : Int) ≤ v ∧ v ≤ 2 ^ (n - 1) - 1 := by
  unfold WordBits.inRange WordBits.minOf WordBits.maxOf
  rw [Bool.and_eq_true, decide_eq_true_iff, decide_eq_true_iff]

/-- With unbounded words every integer is a Word (spec/00_scope.md R11). -/
@[simp] theorem WordBits.inRange_unbounded (v : Int) : WordBits.unbounded.inRange v = true := rfl

/-- The constraints on the two parameters (spec/00_scope.md R8, R9). -/
theorem Config.valid_iff (cfg : Config) :
    cfg.valid = true ↔ 1 ≤ cfg.capacity ∧
      ∀ n, cfg.wordBits = .bounded n → 64 ≤ n ∧ (cfg.capacity : Int) + 3 ≤ 2 ^ (n - 1) - 1 := by
  unfold Config.valid
  cases h : cfg.wordBits <;> simp [WordBits.maxOf]

/-- Every address and every sum of an address and a length is a Word: what R9 (c) is for. -/
theorem Config.inRange_of_small {cfg : Config} (hv : cfg.valid = true) {v : Int} (h0 : 0 ≤ v)
    (h1 : v ≤ (cfg.capacity : Int) + 3) : cfg.wordBits.inRange v = true := by
  cases hb : cfg.wordBits with
  | unbounded => rfl
  | bounded n =>
    obtain ⟨-, h3⟩ := (cfg.valid_iff.1 hv).2 n hb
    have : (0 : Int) ≤ 2 ^ (n - 1) := by positivity
    rw [WordBits.inRange_bounded_iff]
    constructor <;> omega

end Sys2Proof
end

