-- ==== Sys2Proof/Laws/Decode.lean ====
section
/-! SUPPORT. The laws of the tables, the opcode word and the assembly of an instruction from its parameters. -/

namespace Sys2Proof

/-- The opcode table read back: a number is an opcode's exactly if it is that opcode's value. -/
theorem Opcode.ofValue_eq_some_iff (n : Nat) (op : Opcode) : Opcode.ofValue n = some op ↔ n = op.value := by
  constructor
  · intro h
    unfold Opcode.ofValue at h
    split at h <;> first | (cases h; rfl) | cases h
  · rintro rfl
    cases op <;> rfl

/-- A number is no opcode exactly if it is none of the ten values. -/
theorem Opcode.ofValue_eq_none_iff (n : Nat) :
    Opcode.ofValue n = none ↔ n ∉ [1, 2, 3, 4, 5, 6, 7, 8, 9, 99] := by
  constructor
  · intro h hn
    simp only [List.mem_cons, List.not_mem_nil, or_false] at hn
    rcases hn with rfl | rfl | rfl | rfl | rfl | rfl | rfl | rfl | rfl | rfl <;> cases h
  · intro h
    cases hv : Opcode.ofValue n with
    | none => rfl
    | some op =>
      rw [Opcode.ofValue_eq_some_iff] at hv
      subst hv
      exact absurd (by cases op <;> decide) h

/-- The mode table read back. -/
theorem Mode.ofDigit_eq_some_iff (n : Nat) (m : Mode) : Mode.ofDigit n = some m ↔ n = m.digit := by
  constructor
  · intro h
    unfold Mode.ofDigit at h
    split at h <;> first | (cases h; rfl) | cases h
  · rintro rfl
    cases m <;> rfl

/-- A digit is no mode exactly if it is above 2. -/
theorem Mode.ofDigit_eq_none_iff (n : Nat) : Mode.ofDigit n = none ↔ 2 < n := by
  match n with
  | 0 => simp [Mode.ofDigit]
  | 1 => simp [Mode.ofDigit]
  | 2 => simp [Mode.ofDigit]
  | n + 3 => simp [Mode.ofDigit]

theorem Opcode.value_lt (op : Opcode) : op.value < 100 := by cases op <;> decide

theorem Opcode.arity_le (op : Opcode) : op.arity ≤ 3 := by cases op <;> decide

theorem Mode.digit_lt (m : Mode) : m.digit < 10 := by cases m <;> decide

/-- When a mode field is read, and as what. -/
theorem modeField_eq_ok_iff (n i w : Nat) (m : Mode) :
    modeField n i w = .ok m ↔ if i < n then digit (2 + i) w = m.digit else m = .position := by
  unfold modeField
  split_ifs with h
  · cases hd : Mode.ofDigit (digit (2 + i) w) with
    | some m' =>
      have hm := (Mode.ofDigit_eq_some_iff _ _).1 hd
      constructor
      · intro he; cases he; exact hm
      · intro he
        have := (Mode.ofDigit_eq_some_iff _ m).2 he
        rw [hd] at this
        cases this; rfl
    | none =>
      constructor
      · intro he; cases he
      · intro he
        have := (Mode.ofDigit_eq_some_iff _ m).2 he
        rw [hd] at this; cases this
  · constructor
    · intro he; cases he; rfl
    · rintro rfl; rfl

/-- A mode field is rejected exactly if it is used and its digit is above 2. -/
theorem modeField_eq_error_iff (n i w : Nat) (e : OpwordError) :
    modeField n i w = .error e ↔ (i < n ∧ 2 < digit (2 + i) w) ∧ e = .invalidMode i := by
  unfold modeField
  split_ifs with h
  · cases hd : Mode.ofDigit (digit (2 + i) w) with
    | some m' =>
      have : ¬ 2 < digit (2 + i) w := fun hh => by
        rw [(Mode.ofDigit_eq_none_iff _).2 hh] at hd; cases hd
      simp [this]
    | none =>
      have := (Mode.ofDigit_eq_none_iff _).1 hd
      simp [h, this, eq_comm]
  · simp [h]

/-- Exactly when an opcode word decodes: it is not negative, its opcode field is the opcode's number, and each mode field
reads as the mode. -/
theorem decodeOpword_eq_ok_iff (w : Int) (h : Head) :
    decodeOpword w = .ok h ↔ 0 ≤ w ∧ w.toNat % 100 = h.op.value ∧
      modeField h.op.arity 0 w.toNat = .ok h.m0 ∧ modeField h.op.arity 1 w.toNat = .ok h.m1 ∧
      modeField h.op.arity 2 w.toNat = .ok h.m2 := by
  obtain ⟨op, m0, m1, m2⟩ := h
  constructor
  · intro hd
    unfold decodeOpword at hd
    split_ifs at hd with hn
    split at hd
    · cases hd
    · rename_i op' hv
      have hv' := (Opcode.ofValue_eq_some_iff _ _).1 hv
      split at hd
      · cases hd
      · rename_i a0 h0
        split at hd
        · cases hd
        · rename_i a1 h1
          split at hd
          · cases hd
          · rename_i a2 h2
            cases hd
            exact ⟨by omega, hv', h0, h1, h2⟩
  · rintro ⟨hn, hv, h0, h1, h2⟩
    unfold decodeOpword
    rw [if_neg (by omega), (Opcode.ofValue_eq_some_iff _ op).2 hv]
    simp only at h0 h1 h2
    simp only [h0, h1, h2]

/-- Two words with the same opcode field and the same used digits have the same mode fields. -/
theorem modeField_congr {n i w w' : Nat} (h : i < n → digit (2 + i) w' = digit (2 + i) w) :
    modeField n i w' = modeField n i w := by
  unfold modeField
  split_ifs with hi
  · rw [h hi]
  · rfl

/-- What assembling an instruction gives when every parameter is there: the opcode of the head, and each parameter as
`param` supplies it. -/
theorem Head.build_ok {ε : Type} {h : Head} {param : Nat → Mode → Except ε Param} {i : Instr}
    (hb : h.build param = .ok i) :
    i.opcode = h.op ∧ i.params.length = h.op.arity ∧
      ∀ k p, i.params[k]? = some p → param k (h.mode k) = .ok p := by
  obtain ⟨op, m0, m1, m2⟩ := h
  have three : ∀ (mk : Param → Param → Param → Instr),
      Head.build3 ⟨op, m0, m1, m2⟩ param mk = .ok i →
      ∃ p0 p1 p2, i = mk p0 p1 p2 ∧ param 0 m0 = .ok p0 ∧ param 1 m1 = .ok p1 ∧ param 2 m2 = .ok p2 := by
    intro mk hb
    unfold Head.build3 at hb
    split at hb <;> [cases hb; skip]
    split at hb <;> [cases hb; skip]
    split at hb <;> cases hb
    exact ⟨_, _, _, rfl, ‹_›, ‹_›, ‹_›⟩
  have two : ∀ (mk : Param → Param → Instr),
      Head.build2 ⟨op, m0, m1, m2⟩ param mk = .ok i →
      ∃ p0 p1, i = mk p0 p1 ∧ param 0 m0 = .ok p0 ∧ param 1 m1 = .ok p1 := by
    intro mk hb
    unfold Head.build2 at hb
    split at hb <;> [cases hb; skip]
    split at hb <;> cases hb
    exact ⟨_, _, rfl, ‹_›, ‹_›⟩
  have one : ∀ (mk : Param → Instr),
      Head.build1 ⟨op, m0, m1, m2⟩ param mk = .ok i → ∃ p0, i = mk p0 ∧ param 0 m0 = .ok p0 := by
    intro mk hb
    unfold Head.build1 at hb
    split at hb <;> cases hb
    exact ⟨_, rfl, ‹_›⟩
  cases op
  case add | mul | lt | eq =>
    obtain ⟨p0, p1, p2, rfl, h0, h1, h2⟩ := three _ hb
    refine ⟨rfl, rfl, fun k p hk => ?_⟩
    match k with
    | 0 => cases hk; exact h0
    | 1 => cases hk; exact h1
    | 2 => cases hk; exact h2
    | k + 3 => cases hk
  case jnz | jz =>
    obtain ⟨p0, p1, rfl, h0, h1⟩ := two _ hb
    refine ⟨rfl, rfl, fun k p hk => ?_⟩
    match k with
    | 0 => cases hk; exact h0
    | 1 => cases hk; exact h1
    | k + 2 => cases hk
  case inp | out | rb =>
    obtain ⟨p0, rfl, h0⟩ := one _ hb
    refine ⟨rfl, rfl, fun k p hk => ?_⟩
    match k with
    | 0 => cases hk; exact h0
    | k + 1 => cases hk
  case halt =>
    cases hb
    exact ⟨rfl, rfl, fun k p hk => by cases hk⟩

/-- Assembly stops at the first parameter that is not there, with its reason. -/
theorem Head.build_error {ε : Type} {h : Head} {param : Nat → Mode → Except ε Param} {k : Nat} {e : ε}
    (hk : k < h.op.arity) (hg : ∀ j < k, ∃ p, param j (h.mode j) = .ok p) (he : param k (h.mode k) = .error e) :
    h.build param = .error e := by
  obtain ⟨op, m0, m1, m2⟩ := h
  have hk' : k < op.arity := hk
  have hk3 : k = 0 ∨ k = 1 ∨ k = 2 := by
    have := op.arity_le
    omega
  clear hk
  rcases hk3 with rfl | rfl | rfl
  · have he' : param 0 m0 = .error e := he
    clear he hg
    cases op with
    | halt => exact absurd hk' (by decide)
    | _ => simp [Head.build, Head.build1, Head.build2, Head.build3, he']
  · obtain ⟨p, hp⟩ := hg 0 (by omega)
    have hp' : param 0 m0 = .ok p := hp
    have he' : param 1 m1 = .error e := he
    clear he hp hg
    cases op with
    | inp | out | rb | halt => exact absurd hk' (by decide)
    | _ => simp [Head.build, Head.build2, Head.build3, hp', he']
  · obtain ⟨p, hp⟩ := hg 0 (by omega)
    obtain ⟨q, hq⟩ := hg 1 (by omega)
    have hp' : param 0 m0 = .ok p := hp
    have hq' : param 1 m1 = .ok q := hq
    have he' : param 2 m2 = .error e := he
    clear he hp hq hg
    cases op with
    | add | mul | lt | eq => simp [Head.build, Head.build3, hp', hq', he']
    | _ => exact absurd hk' (by decide)

/-- The number of parameters of an instruction is that of its opcode. -/
theorem Instr.length_params (i : Instr) : i.params.length = i.opcode.arity := by cases i <;> rfl

end Sys2Proof
end

