-- ==== Sys2Proof/Laws/Memory.lean ====
section
/-! SUPPORT. The laws of memory as data: read after write, and that every memory operation keeps the canonical form. -/

namespace Sys2Proof.Machine

/-- Writing a cell and reading it gives the value written. -/
@[simp] theorem Memory.read_write_same (m : Memory) (a : Nat) (v : Int) (h : Memory.wf m) :
    (Memory.write m a v).read a = v := by
  induction m with
  | nil => by_cases hv : v = Memory.unlisted <;> simp [Memory.write, Memory.read, hv]
  | cons c m ih =>
    obtain ⟨b, w⟩ := c
    obtain ⟨hp, hz⟩ := h
    rw [List.pairwise_cons] at hp
    have hm : Memory.wf m := ⟨hp.2, fun c hc => hz c (List.mem_cons_of_mem _ hc)⟩
    have read_below : ∀ m : Memory, (∀ c ∈ m, a < c.1) → Memory.read m a = Memory.unlisted := by
      intro m
      induction m with
      | nil => intro _; rfl
      | cons c m ih =>
        intro hc
        have := hc c (List.mem_cons_self ..)
        rw [Memory.read, if_neg (by omega)]
        exact ih fun d hd => hc d (List.mem_cons_of_mem _ hd)
    by_cases h1 : a < b
    · by_cases hv : v = Memory.unlisted
      · have : a ≠ b := by omega
        simp only [Memory.write, h1, hv, if_true, Memory.read, this, if_false]
        exact read_below m fun c hc => Nat.lt_trans h1 (hp.1 c hc)
      · simp [Memory.write, h1, hv, Memory.read]
    · by_cases h2 : a = b
      · by_cases hv : v = Memory.unlisted
        · simp only [Memory.write, h2, hv, if_true, if_false, Nat.lt_irrefl]
          exact h2 ▸ read_below m fun c hc => h2 ▸ hp.1 c hc
        · simp [Memory.write, h2, hv, Memory.read]
      · simp [Memory.write, h1, h2, Memory.read, ih hm]

/-- Writing one cell leaves every other cell as it read. -/
@[simp] theorem Memory.read_write_other (m : Memory) (a b : Nat) (v : Int) (h : b ≠ a) :
    (Memory.write m a v).read b = m.read b := by
  induction m with
  | nil => by_cases hv : v = Memory.unlisted <;> simp [Memory.write, Memory.read, hv, h]
  | cons c m ih =>
    obtain ⟨k, w⟩ := c
    unfold Memory.write
    split_ifs with h1 h2 h2 h3
    · rfl
    · simp [Memory.read, h]
    · subst h2; simp [Memory.read, h]
    · subst h2; simp [Memory.read, h]
    · simp [Memory.read, ih]

/-- Every entry after a write is the one written, and then not the unlisted value, or was there before. -/
theorem Memory.mem_write {m : Memory} {a : Nat} {v : Int} {c : Nat × Int} (h : c ∈ Memory.write m a v) :
    (c = (a, v) ∧ v ≠ Memory.unlisted) ∨ c ∈ m := by
  induction m with
  | nil => by_cases hv : v = Memory.unlisted <;> simp_all [Memory.write]
  | cons d m ih =>
    obtain ⟨b, w⟩ := d
    unfold Memory.write at h
    split_ifs at h with h1 h2 h2 h3
    · exact .inr h
    · rcases List.mem_cons.1 h with rfl | h
      · exact .inl ⟨rfl, h2⟩
      · exact .inr h
    · exact .inr (List.mem_cons_of_mem _ h)
    · rcases List.mem_cons.1 h with rfl | h
      · exact .inl ⟨rfl, h3⟩
      · exact .inr (List.mem_cons_of_mem _ h)
    · rcases List.mem_cons.1 h with rfl | h
      · exact .inr (List.mem_cons_self ..)
      · exact (ih h).imp id (List.mem_cons_of_mem _)

/-- A write keeps the canonical form. -/
theorem Memory.wf_write {m : Memory} (h : Memory.wf m) (a : Nat) (v : Int) : Memory.wf (Memory.write m a v) := by
  refine ⟨?_, fun c hc => ?_⟩
  · obtain ⟨hp, -⟩ := h
    induction m with
    | nil => by_cases hv : v = Memory.unlisted <;> simp [Memory.write, hv]
    | cons d m ih =>
      obtain ⟨b, w⟩ := d
      have hp' := List.pairwise_cons.1 hp
      unfold Memory.write
      split_ifs with h1 h2 h2 h3
      · exact hp
      · refine List.pairwise_cons.2 ⟨fun c hc => ?_, hp⟩
        rcases List.mem_cons.1 hc with rfl | hc
        · exact h1
        · exact Nat.lt_trans h1 (hp'.1 c hc)
      · exact hp'.2
      · exact List.pairwise_cons.2 ⟨fun c hc => h2 ▸ hp'.1 c hc, hp'.2⟩
      · refine List.pairwise_cons.2 ⟨fun c hc => ?_, ih hp'.2⟩
        rcases Memory.mem_write hc with ⟨rfl, -⟩ | hc
        · show b < a; omega
        · exact hp'.1 c hc
  · rcases Memory.mem_write hc with ⟨rfl, hv⟩ | hc
    · exact hv
    · exact h.2 c hc

/-- What a cell reads as is a listed word or the unlisted value. -/
theorem Memory.read_cases (m : Memory) (a : Nat) : m.read a = Memory.unlisted ∨ (a, m.read a) ∈ m := by
  induction m with
  | nil => exact .inl rfl
  | cons c m ih =>
    obtain ⟨b, w⟩ := c
    by_cases h : a = b
    · subst h; right; simp [Memory.read]
    · rw [Memory.read, if_neg h]
      exact ih.imp id (List.mem_cons_of_mem _)

/-- Loading words keeps the canonical form. -/
theorem Memory.wf_load {m : Memory} (h : Memory.wf m) (a : Nat) (vs : List Int) : Memory.wf (Memory.load m a vs) := by
  induction vs generalizing m a with
  | nil => exact h
  | cons v vs ih => exact ih (Memory.wf_write h a v) (a + 1)

/-- What a cell reads as after words were loaded from address a on. -/
theorem Memory.read_load {m : Memory} (h : Memory.wf m) (a : Nat) (vs : List Int) (b : Nat) :
    (Memory.load m a vs).read b = if a ≤ b ∧ b < a + vs.length then vs.getD (b - a) 0 else m.read b := by
  induction vs generalizing m a with
  | nil =>
    rw [if_neg (by simp only [List.length_nil]; omega)]
    rfl
  | cons v vs ih =>
    rw [Memory.load, ih (Memory.wf_write h a v), List.length_cons]
    by_cases hb : b = a
    · subst hb
      rw [if_neg (by omega), if_pos (by omega), Memory.read_write_same _ _ _ h]
      simp
    · rw [Memory.read_write_other _ _ _ _ hb]
      by_cases hc : a + 1 ≤ b ∧ b < a + 1 + vs.length
      · rw [if_pos hc, if_pos (by omega)]
        obtain ⟨k, rfl⟩ : ∃ k, b = a + 1 + k := ⟨b - (a + 1), by omega⟩
        have h1 : a + 1 + k - (a + 1) = k := by omega
        have h2 : a + 1 + k - a = k + 1 := by omega
        rw [h1, h2, List.getD_cons_succ]
      · rw [if_neg hc, if_neg (by omega)]

/-- Every entry after a load is one of the words loaded, at its address, or was there before. -/
theorem Memory.mem_load {m : Memory} {a : Nat} {vs : List Int} {c : Nat × Int} (h : c ∈ Memory.load m a vs) :
    (a ≤ c.1 ∧ c.1 < a + vs.length ∧ c.2 ∈ vs) ∨ c ∈ m := by
  induction vs generalizing m a with
  | nil => exact .inr h
  | cons v vs ih =>
    rcases ih h with ⟨h1, h2, h3⟩ | h'
    · refine .inl ⟨by omega, by simp only [List.length_cons]; omega, List.mem_cons_of_mem _ h3⟩
    · rcases Memory.mem_write h' with ⟨rfl, -⟩ | h'
      · exact .inl ⟨Nat.le_refl _, by simp only [List.length_cons]; omega, List.mem_cons_self ..⟩
      · exact .inr h'

/-- The reset memory has the canonical form. -/
theorem Memory.wf_reset : Memory.wf State.reset.mem := by decide

end Sys2Proof.Machine
end

