-- ==== Sys2Proof/Laws/State.lean ====
section
/-! SUPPORT. One lemma per field per state update, so that no proof unfolds a record update. -/

namespace Sys2Proof.Machine

/-! ### `takeFault` -/

@[simp] theorem State.takeFault_cfg (t : Trap) (s : State) : (s.takeFault t).cfg = s.cfg := rfl
@[simp] theorem State.takeFault_mem (t : Trap) (s : State) : (s.takeFault t).mem = s.mem := rfl
@[simp] theorem State.takeFault_pc (t : Trap) (s : State) : (s.takeFault t).pc = s.pc := rfl
@[simp] theorem State.takeFault_rb (t : Trap) (s : State) : (s.takeFault t).rb = s.rb := rfl
@[simp] theorem State.takeFault_status (t : Trap) (s : State) : (s.takeFault t).status = .faulted := rfl
@[simp] theorem State.takeFault_yieldMarker (t : Trap) (s : State) : (s.takeFault t).yieldMarker = s.yieldMarker := rfl
@[simp] theorem State.takeFault_resumeGrant (t : Trap) (s : State) : (s.takeFault t).resumeGrant = s.resumeGrant := rfl
@[simp] theorem State.takeFault_breakPolicy (t : Trap) (s : State) : (s.takeFault t).breakPolicy = s.breakPolicy := rfl
@[simp] theorem State.takeFault_fault (t : Trap) (s : State) : (s.takeFault t).fault = some { cause := t.cause, pc := s.pc, info := t.info } := rfl
@[simp] theorem State.takeFault_id (t : Trap) (s : State) : (s.takeFault t).id = s.id := rfl
@[simp] theorem State.takeFault_inQ (t : Trap) (s : State) : (s.takeFault t).inQ = s.inQ := rfl
@[simp] theorem State.takeFault_outQ (t : Trap) (s : State) : (s.takeFault t).outQ = s.outQ := rfl
@[simp] theorem State.takeFault_calls (t : Trap) (s : State) : (s.takeFault t).calls = s.calls := rfl

/-! ### `setCell` -/

@[simp] theorem State.setCell_cfg (s : State) (a v : Int) : (s.setCell a v).cfg = s.cfg := rfl
@[simp] theorem State.setCell_mem (s : State) (a v : Int) : (s.setCell a v).mem = s.mem.write a.toNat v := rfl
@[simp] theorem State.setCell_pc (s : State) (a v : Int) : (s.setCell a v).pc = s.pc := rfl
@[simp] theorem State.setCell_rb (s : State) (a v : Int) : (s.setCell a v).rb = s.rb := rfl
@[simp] theorem State.setCell_status (s : State) (a v : Int) : (s.setCell a v).status = s.status := rfl
@[simp] theorem State.setCell_yieldMarker (s : State) (a v : Int) : (s.setCell a v).yieldMarker = s.yieldMarker := rfl
@[simp] theorem State.setCell_resumeGrant (s : State) (a v : Int) : (s.setCell a v).resumeGrant = s.resumeGrant := rfl
@[simp] theorem State.setCell_breakPolicy (s : State) (a v : Int) : (s.setCell a v).breakPolicy = s.breakPolicy := rfl
@[simp] theorem State.setCell_fault (s : State) (a v : Int) : (s.setCell a v).fault = s.fault := rfl
@[simp] theorem State.setCell_id (s : State) (a v : Int) : (s.setCell a v).id = s.id := rfl
@[simp] theorem State.setCell_inQ (s : State) (a v : Int) : (s.setCell a v).inQ = s.inQ := rfl
@[simp] theorem State.setCell_outQ (s : State) (a v : Int) : (s.setCell a v).outQ = s.outQ := rfl
@[simp] theorem State.setCell_calls (s : State) (a v : Int) : (s.setCell a v).calls = s.calls := rfl

/-! ### `setPc` -/

@[simp] theorem State.setPc_cfg (s : State) (a : Int) : (s.setPc a).cfg = s.cfg := rfl
@[simp] theorem State.setPc_mem (s : State) (a : Int) : (s.setPc a).mem = s.mem := rfl
@[simp] theorem State.setPc_pc (s : State) (a : Int) : (s.setPc a).pc = a := rfl
@[simp] theorem State.setPc_rb (s : State) (a : Int) : (s.setPc a).rb = s.rb := rfl
@[simp] theorem State.setPc_status (s : State) (a : Int) : (s.setPc a).status = s.status := rfl
@[simp] theorem State.setPc_yieldMarker (s : State) (a : Int) : (s.setPc a).yieldMarker = s.yieldMarker := rfl
@[simp] theorem State.setPc_resumeGrant (s : State) (a : Int) : (s.setPc a).resumeGrant = s.resumeGrant := rfl
@[simp] theorem State.setPc_breakPolicy (s : State) (a : Int) : (s.setPc a).breakPolicy = s.breakPolicy := rfl
@[simp] theorem State.setPc_fault (s : State) (a : Int) : (s.setPc a).fault = s.fault := rfl
@[simp] theorem State.setPc_id (s : State) (a : Int) : (s.setPc a).id = s.id := rfl
@[simp] theorem State.setPc_inQ (s : State) (a : Int) : (s.setPc a).inQ = s.inQ := rfl
@[simp] theorem State.setPc_outQ (s : State) (a : Int) : (s.setPc a).outQ = s.outQ := rfl
@[simp] theorem State.setPc_calls (s : State) (a : Int) : (s.setPc a).calls = s.calls := rfl

/-! ### `advance` -/

@[simp] theorem State.advance_cfg (s : State) (n : Nat) : (s.advance n).cfg = s.cfg := rfl
@[simp] theorem State.advance_mem (s : State) (n : Nat) : (s.advance n).mem = s.mem := rfl
@[simp] theorem State.advance_pc (s : State) (n : Nat) : (s.advance n).pc = s.pc + n := rfl
@[simp] theorem State.advance_rb (s : State) (n : Nat) : (s.advance n).rb = s.rb := rfl
@[simp] theorem State.advance_status (s : State) (n : Nat) : (s.advance n).status = s.status := rfl
@[simp] theorem State.advance_yieldMarker (s : State) (n : Nat) : (s.advance n).yieldMarker = s.yieldMarker := rfl
@[simp] theorem State.advance_resumeGrant (s : State) (n : Nat) : (s.advance n).resumeGrant = s.resumeGrant := rfl
@[simp] theorem State.advance_breakPolicy (s : State) (n : Nat) : (s.advance n).breakPolicy = s.breakPolicy := rfl
@[simp] theorem State.advance_fault (s : State) (n : Nat) : (s.advance n).fault = s.fault := rfl
@[simp] theorem State.advance_id (s : State) (n : Nat) : (s.advance n).id = s.id := rfl
@[simp] theorem State.advance_inQ (s : State) (n : Nat) : (s.advance n).inQ = s.inQ := rfl
@[simp] theorem State.advance_outQ (s : State) (n : Nat) : (s.advance n).outQ = s.outQ := rfl
@[simp] theorem State.advance_calls (s : State) (n : Nat) : (s.advance n).calls = s.calls := rfl

/-! ### `setRb` -/

@[simp] theorem State.setRb_cfg (s : State) (r : Int) : (s.setRb r).cfg = s.cfg := rfl
@[simp] theorem State.setRb_mem (s : State) (r : Int) : (s.setRb r).mem = s.mem := rfl
@[simp] theorem State.setRb_pc (s : State) (r : Int) : (s.setRb r).pc = s.pc := rfl
@[simp] theorem State.setRb_rb (s : State) (r : Int) : (s.setRb r).rb = r := rfl
@[simp] theorem State.setRb_status (s : State) (r : Int) : (s.setRb r).status = s.status := rfl
@[simp] theorem State.setRb_yieldMarker (s : State) (r : Int) : (s.setRb r).yieldMarker = s.yieldMarker := rfl
@[simp] theorem State.setRb_resumeGrant (s : State) (r : Int) : (s.setRb r).resumeGrant = s.resumeGrant := rfl
@[simp] theorem State.setRb_breakPolicy (s : State) (r : Int) : (s.setRb r).breakPolicy = s.breakPolicy := rfl
@[simp] theorem State.setRb_fault (s : State) (r : Int) : (s.setRb r).fault = s.fault := rfl
@[simp] theorem State.setRb_id (s : State) (r : Int) : (s.setRb r).id = s.id := rfl
@[simp] theorem State.setRb_inQ (s : State) (r : Int) : (s.setRb r).inQ = s.inQ := rfl
@[simp] theorem State.setRb_outQ (s : State) (r : Int) : (s.setRb r).outQ = s.outQ := rfl
@[simp] theorem State.setRb_calls (s : State) (r : Int) : (s.setRb r).calls = s.calls := rfl

/-! ### `setInQ` -/

@[simp] theorem State.setInQ_cfg (s : State) (q : List Int) : (s.setInQ q).cfg = s.cfg := rfl
@[simp] theorem State.setInQ_mem (s : State) (q : List Int) : (s.setInQ q).mem = s.mem := rfl
@[simp] theorem State.setInQ_pc (s : State) (q : List Int) : (s.setInQ q).pc = s.pc := rfl
@[simp] theorem State.setInQ_rb (s : State) (q : List Int) : (s.setInQ q).rb = s.rb := rfl
@[simp] theorem State.setInQ_status (s : State) (q : List Int) : (s.setInQ q).status = s.status := rfl
@[simp] theorem State.setInQ_yieldMarker (s : State) (q : List Int) : (s.setInQ q).yieldMarker = s.yieldMarker := rfl
@[simp] theorem State.setInQ_resumeGrant (s : State) (q : List Int) : (s.setInQ q).resumeGrant = s.resumeGrant := rfl
@[simp] theorem State.setInQ_breakPolicy (s : State) (q : List Int) : (s.setInQ q).breakPolicy = s.breakPolicy := rfl
@[simp] theorem State.setInQ_fault (s : State) (q : List Int) : (s.setInQ q).fault = s.fault := rfl
@[simp] theorem State.setInQ_id (s : State) (q : List Int) : (s.setInQ q).id = s.id := rfl
@[simp] theorem State.setInQ_inQ (s : State) (q : List Int) : (s.setInQ q).inQ = q := rfl
@[simp] theorem State.setInQ_outQ (s : State) (q : List Int) : (s.setInQ q).outQ = s.outQ := rfl
@[simp] theorem State.setInQ_calls (s : State) (q : List Int) : (s.setInQ q).calls = s.calls := rfl

/-! ### `pushOut` -/

@[simp] theorem State.pushOut_cfg (s : State) (v : Int) : (s.pushOut v).cfg = s.cfg := rfl
@[simp] theorem State.pushOut_mem (s : State) (v : Int) : (s.pushOut v).mem = s.mem := rfl
@[simp] theorem State.pushOut_pc (s : State) (v : Int) : (s.pushOut v).pc = s.pc := rfl
@[simp] theorem State.pushOut_rb (s : State) (v : Int) : (s.pushOut v).rb = s.rb := rfl
@[simp] theorem State.pushOut_status (s : State) (v : Int) : (s.pushOut v).status = s.status := rfl
@[simp] theorem State.pushOut_yieldMarker (s : State) (v : Int) : (s.pushOut v).yieldMarker = s.yieldMarker := rfl
@[simp] theorem State.pushOut_resumeGrant (s : State) (v : Int) : (s.pushOut v).resumeGrant = s.resumeGrant := rfl
@[simp] theorem State.pushOut_breakPolicy (s : State) (v : Int) : (s.pushOut v).breakPolicy = s.breakPolicy := rfl
@[simp] theorem State.pushOut_fault (s : State) (v : Int) : (s.pushOut v).fault = s.fault := rfl
@[simp] theorem State.pushOut_id (s : State) (v : Int) : (s.pushOut v).id = s.id := rfl
@[simp] theorem State.pushOut_inQ (s : State) (v : Int) : (s.pushOut v).inQ = s.inQ := rfl
@[simp] theorem State.pushOut_outQ (s : State) (v : Int) : (s.pushOut v).outQ = s.outQ ++ [v] := rfl
@[simp] theorem State.pushOut_calls (s : State) (v : Int) : (s.pushOut v).calls = s.calls := rfl

/-! ### `halt` -/

@[simp] theorem State.halt_cfg (s : State) : (s.halt).cfg = s.cfg := rfl
@[simp] theorem State.halt_mem (s : State) : (s.halt).mem = s.mem := rfl
@[simp] theorem State.halt_pc (s : State) : (s.halt).pc = s.pc := rfl
@[simp] theorem State.halt_rb (s : State) : (s.halt).rb = s.rb := rfl
@[simp] theorem State.halt_status (s : State) : (s.halt).status = .halted := rfl
@[simp] theorem State.halt_yieldMarker (s : State) : (s.halt).yieldMarker = s.yieldMarker := rfl
@[simp] theorem State.halt_resumeGrant (s : State) : (s.halt).resumeGrant = s.resumeGrant := rfl
@[simp] theorem State.halt_breakPolicy (s : State) : (s.halt).breakPolicy = s.breakPolicy := rfl
@[simp] theorem State.halt_fault (s : State) : (s.halt).fault = s.fault := rfl
@[simp] theorem State.halt_id (s : State) : (s.halt).id = s.id := rfl
@[simp] theorem State.halt_inQ (s : State) : (s.halt).inQ = s.inQ := rfl
@[simp] theorem State.halt_outQ (s : State) : (s.halt).outQ = s.outQ := rfl
@[simp] theorem State.halt_calls (s : State) : (s.halt).calls = s.calls := rfl

/-! ### `yieldEarly` -/

@[simp] theorem State.yieldEarly_cfg (s : State) : (s.yieldEarly).cfg = s.cfg := rfl
@[simp] theorem State.yieldEarly_mem (s : State) : (s.yieldEarly).mem = s.mem := rfl
@[simp] theorem State.yieldEarly_pc (s : State) : (s.yieldEarly).pc = s.pc := rfl
@[simp] theorem State.yieldEarly_rb (s : State) : (s.yieldEarly).rb = s.rb := rfl
@[simp] theorem State.yieldEarly_status (s : State) : (s.yieldEarly).status = .suspended := rfl
@[simp] theorem State.yieldEarly_yieldMarker (s : State) : (s.yieldEarly).yieldMarker = .early := rfl
@[simp] theorem State.yieldEarly_resumeGrant (s : State) : (s.yieldEarly).resumeGrant = s.resumeGrant := rfl
@[simp] theorem State.yieldEarly_breakPolicy (s : State) : (s.yieldEarly).breakPolicy = s.breakPolicy := rfl
@[simp] theorem State.yieldEarly_fault (s : State) : (s.yieldEarly).fault = s.fault := rfl
@[simp] theorem State.yieldEarly_id (s : State) : (s.yieldEarly).id = s.id := rfl
@[simp] theorem State.yieldEarly_inQ (s : State) : (s.yieldEarly).inQ = s.inQ := rfl
@[simp] theorem State.yieldEarly_outQ (s : State) : (s.yieldEarly).outQ = s.outQ := rfl
@[simp] theorem State.yieldEarly_calls (s : State) : (s.yieldEarly).calls = s.calls := rfl

/-! ### `yieldLate` -/

@[simp] theorem State.yieldLate_cfg (s : State) : (s.yieldLate).cfg = s.cfg := rfl
@[simp] theorem State.yieldLate_mem (s : State) : (s.yieldLate).mem = s.mem := rfl
@[simp] theorem State.yieldLate_pc (s : State) : (s.yieldLate).pc = s.pc := rfl
@[simp] theorem State.yieldLate_rb (s : State) : (s.yieldLate).rb = s.rb := rfl
@[simp] theorem State.yieldLate_status (s : State) : (s.yieldLate).status = .suspended := rfl
@[simp] theorem State.yieldLate_yieldMarker (s : State) : (s.yieldLate).yieldMarker = .late := rfl
@[simp] theorem State.yieldLate_resumeGrant (s : State) : (s.yieldLate).resumeGrant = s.resumeGrant := rfl
@[simp] theorem State.yieldLate_breakPolicy (s : State) : (s.yieldLate).breakPolicy = s.breakPolicy := rfl
@[simp] theorem State.yieldLate_fault (s : State) : (s.yieldLate).fault = s.fault := rfl
@[simp] theorem State.yieldLate_id (s : State) : (s.yieldLate).id = s.id := rfl
@[simp] theorem State.yieldLate_inQ (s : State) : (s.yieldLate).inQ = s.inQ := rfl
@[simp] theorem State.yieldLate_outQ (s : State) : (s.yieldLate).outQ = s.outQ := rfl
@[simp] theorem State.yieldLate_calls (s : State) : (s.yieldLate).calls = s.calls := rfl

/-! ### `clearGrant` -/

@[simp] theorem State.clearGrant_cfg (s : State) : (s.clearGrant).cfg = s.cfg := rfl
@[simp] theorem State.clearGrant_mem (s : State) : (s.clearGrant).mem = s.mem := rfl
@[simp] theorem State.clearGrant_pc (s : State) : (s.clearGrant).pc = s.pc := rfl
@[simp] theorem State.clearGrant_rb (s : State) : (s.clearGrant).rb = s.rb := rfl
@[simp] theorem State.clearGrant_status (s : State) : (s.clearGrant).status = s.status := rfl
@[simp] theorem State.clearGrant_yieldMarker (s : State) : (s.clearGrant).yieldMarker = s.yieldMarker := rfl
@[simp] theorem State.clearGrant_resumeGrant (s : State) : (s.clearGrant).resumeGrant = false := rfl
@[simp] theorem State.clearGrant_breakPolicy (s : State) : (s.clearGrant).breakPolicy = s.breakPolicy := rfl
@[simp] theorem State.clearGrant_fault (s : State) : (s.clearGrant).fault = s.fault := rfl
@[simp] theorem State.clearGrant_id (s : State) : (s.clearGrant).id = s.id := rfl
@[simp] theorem State.clearGrant_inQ (s : State) : (s.clearGrant).inQ = s.inQ := rfl
@[simp] theorem State.clearGrant_outQ (s : State) : (s.clearGrant).outQ = s.outQ := rfl
@[simp] theorem State.clearGrant_calls (s : State) : (s.clearGrant).calls = s.calls := rfl

/-! ### `attachQueues` -/

@[simp] theorem State.attachQueues_cfg (c : RunCall) (s : State) : (s.attachQueues c).cfg = s.cfg := rfl
@[simp] theorem State.attachQueues_mem (c : RunCall) (s : State) : (s.attachQueues c).mem = s.mem := rfl
@[simp] theorem State.attachQueues_pc (c : RunCall) (s : State) : (s.attachQueues c).pc = s.pc := rfl
@[simp] theorem State.attachQueues_rb (c : RunCall) (s : State) : (s.attachQueues c).rb = s.rb := rfl
@[simp] theorem State.attachQueues_status (c : RunCall) (s : State) : (s.attachQueues c).status = s.status := rfl
@[simp] theorem State.attachQueues_yieldMarker (c : RunCall) (s : State) : (s.attachQueues c).yieldMarker = s.yieldMarker := rfl
@[simp] theorem State.attachQueues_resumeGrant (c : RunCall) (s : State) : (s.attachQueues c).resumeGrant = s.resumeGrant := rfl
@[simp] theorem State.attachQueues_breakPolicy (c : RunCall) (s : State) : (s.attachQueues c).breakPolicy = s.breakPolicy := rfl
@[simp] theorem State.attachQueues_fault (c : RunCall) (s : State) : (s.attachQueues c).fault = s.fault := rfl
@[simp] theorem State.attachQueues_id (c : RunCall) (s : State) : (s.attachQueues c).id = s.id := rfl
@[simp] theorem State.attachQueues_inQ (c : RunCall) (s : State) : (s.attachQueues c).inQ = c.inQ.resolve s.inQ := rfl
@[simp] theorem State.attachQueues_outQ (c : RunCall) (s : State) : (s.attachQueues c).outQ = c.outQ.resolve s.outQ := rfl
@[simp] theorem State.attachQueues_calls (c : RunCall) (s : State) : (s.attachQueues c).calls = s.calls := rfl

/-! ### `resumeEarly` -/

@[simp] theorem State.resumeEarly_cfg (s : State) : (s.resumeEarly).cfg = s.cfg := rfl
@[simp] theorem State.resumeEarly_mem (s : State) : (s.resumeEarly).mem = s.mem := rfl
@[simp] theorem State.resumeEarly_pc (s : State) : (s.resumeEarly).pc = s.pc := rfl
@[simp] theorem State.resumeEarly_rb (s : State) : (s.resumeEarly).rb = s.rb := rfl
@[simp] theorem State.resumeEarly_status (s : State) : (s.resumeEarly).status = .running := rfl
@[simp] theorem State.resumeEarly_yieldMarker (s : State) : (s.resumeEarly).yieldMarker = .none := rfl
@[simp] theorem State.resumeEarly_resumeGrant (s : State) : (s.resumeEarly).resumeGrant = true := rfl
@[simp] theorem State.resumeEarly_breakPolicy (s : State) : (s.resumeEarly).breakPolicy = s.breakPolicy := rfl
@[simp] theorem State.resumeEarly_fault (s : State) : (s.resumeEarly).fault = s.fault := rfl
@[simp] theorem State.resumeEarly_id (s : State) : (s.resumeEarly).id = s.id := rfl
@[simp] theorem State.resumeEarly_inQ (s : State) : (s.resumeEarly).inQ = s.inQ := rfl
@[simp] theorem State.resumeEarly_outQ (s : State) : (s.resumeEarly).outQ = s.outQ := rfl
@[simp] theorem State.resumeEarly_calls (s : State) : (s.resumeEarly).calls = s.calls := rfl

/-! ### `resumeLate` -/

@[simp] theorem State.resumeLate_cfg (s : State) : (s.resumeLate).cfg = s.cfg := rfl
@[simp] theorem State.resumeLate_mem (s : State) : (s.resumeLate).mem = s.mem := rfl
@[simp] theorem State.resumeLate_pc (s : State) : (s.resumeLate).pc = s.pc := rfl
@[simp] theorem State.resumeLate_rb (s : State) : (s.resumeLate).rb = s.rb := rfl
@[simp] theorem State.resumeLate_status (s : State) : (s.resumeLate).status = .running := rfl
@[simp] theorem State.resumeLate_yieldMarker (s : State) : (s.resumeLate).yieldMarker = .none := rfl
@[simp] theorem State.resumeLate_resumeGrant (s : State) : (s.resumeLate).resumeGrant = s.resumeGrant := rfl
@[simp] theorem State.resumeLate_breakPolicy (s : State) : (s.resumeLate).breakPolicy = s.breakPolicy := rfl
@[simp] theorem State.resumeLate_fault (s : State) : (s.resumeLate).fault = s.fault := rfl
@[simp] theorem State.resumeLate_id (s : State) : (s.resumeLate).id = s.id := rfl
@[simp] theorem State.resumeLate_inQ (s : State) : (s.resumeLate).inQ = s.inQ := rfl
@[simp] theorem State.resumeLate_outQ (s : State) : (s.resumeLate).outQ = s.outQ := rfl
@[simp] theorem State.resumeLate_calls (s : State) : (s.resumeLate).calls = s.calls := rfl

/-! ### `setCalls` -/

@[simp] theorem State.setCalls_cfg (s : State) (cs : List RunCall) : (s.setCalls cs).cfg = s.cfg := rfl
@[simp] theorem State.setCalls_mem (s : State) (cs : List RunCall) : (s.setCalls cs).mem = s.mem := rfl
@[simp] theorem State.setCalls_pc (s : State) (cs : List RunCall) : (s.setCalls cs).pc = s.pc := rfl
@[simp] theorem State.setCalls_rb (s : State) (cs : List RunCall) : (s.setCalls cs).rb = s.rb := rfl
@[simp] theorem State.setCalls_status (s : State) (cs : List RunCall) : (s.setCalls cs).status = s.status := rfl
@[simp] theorem State.setCalls_yieldMarker (s : State) (cs : List RunCall) : (s.setCalls cs).yieldMarker = s.yieldMarker := rfl
@[simp] theorem State.setCalls_resumeGrant (s : State) (cs : List RunCall) : (s.setCalls cs).resumeGrant = s.resumeGrant := rfl
@[simp] theorem State.setCalls_breakPolicy (s : State) (cs : List RunCall) : (s.setCalls cs).breakPolicy = s.breakPolicy := rfl
@[simp] theorem State.setCalls_fault (s : State) (cs : List RunCall) : (s.setCalls cs).fault = s.fault := rfl
@[simp] theorem State.setCalls_id (s : State) (cs : List RunCall) : (s.setCalls cs).id = s.id := rfl
@[simp] theorem State.setCalls_inQ (s : State) (cs : List RunCall) : (s.setCalls cs).inQ = s.inQ := rfl
@[simp] theorem State.setCalls_outQ (s : State) (cs : List RunCall) : (s.setCalls cs).outQ = s.outQ := rfl
@[simp] theorem State.setCalls_calls (s : State) (cs : List RunCall) : (s.setCalls cs).calls = cs := rfl

/-! ### What only depends on fields an update leaves alone -/

end Sys2Proof.Machine
end

