-- ==== Sys2Proof/Laws/Ops.lean ====
section
/-! SUPPORT. What each shared operation can do, said once: memory access, fault entry, operand values, RUN entry. -/

namespace Sys2Proof.Machine

theorem State.mapped_iff (s : State) (a : Int) : s.mapped a = true ↔ 0 ≤ a ∧ a < (s.cfg.capacity : Int) := by
  simp [State.mapped]

theorem State.memRead_of_mapped {s : State} {a : Int} (h : s.mapped a = true) :
    s.memRead a = .ok (s.mem.read a.toNat) := by
  simp [State.memRead, h]

theorem State.memRead_of_unmapped {s : State} {a : Int} (h : s.mapped a = false) :
    s.memRead a = .error { cause := .memoryFault, info := a } := by
  simp [State.memRead, h]

/-- A read succeeds exactly at a mapped address, with the word of the cell. -/
theorem State.memRead_ok_iff {s : State} {a v : Int} :
    s.memRead a = .ok v ↔ s.mapped a = true ∧ v = s.mem.read a.toNat := by
  unfold State.memRead
  split_ifs with h
  · simp [h, eq_comm]
  · simp [h]

/-- A write succeeds exactly at a mapped address, and then puts one cell. -/
theorem State.memWrite_ok_iff {s t : State} {a v : Int} :
    s.memWrite a v = .ok t ↔ s.mapped a = true ∧ t = s.setCell a v := by
  unfold State.memWrite
  split_ifs with h
  · simp [h, eq_comm]
  · simp [h]

theorem State.memWrite_of_mapped {s : State} {a v : Int} (h : s.mapped a = true) :
    s.memWrite a v = .ok (s.setCell a v) := State.memWrite_ok_iff.2 ⟨h, rfl⟩

/-- Reading depends only on memory and the parameters. -/
theorem State.memRead_congr {s t : State} (hm : t.mem = s.mem) (hc : t.cfg = s.cfg) : t.memRead = s.memRead := by
  funext a; simp [State.memRead, State.mapped, hm, hc]

/-- A cell put leaves every other address reading as before. -/
theorem State.memRead_setCell_other (s : State) (a b v : Int) (ha : 0 ≤ a) (h : b ≠ a) :
    (s.setCell a v).memRead b = s.memRead b := by
  unfold State.memRead
  by_cases hb : s.mapped b = true
  · have h0 := (s.mapped_iff b).1 hb
    have hne : b.toNat ≠ a.toNat := by omega
    have hb' : (s.setCell a v).mapped b = true := hb
    rw [if_pos hb, if_pos hb', State.setCell_mem, Memory.read_write_other _ _ _ _ hne]
  · have hb' : ¬ (s.setCell a v).mapped b = true := hb
    rw [if_neg hb, if_neg hb']

/-- A cell put reads as the word put. -/
theorem State.memRead_setCell_same (s : State) (a v : Int) (hw : Memory.wf s.mem) (ha : s.mapped a = true) :
    (s.setCell a v).memRead a = .ok v := by
  have ha' : (s.setCell a v).mapped a = true := ha
  rw [State.memRead_of_mapped ha', State.setCell_mem, Memory.read_write_same _ _ _ hw]

/-- `attempt` always answers a next state: what the part of the step gave, or its fault taken. -/
theorem State.attempt_cases (f : State → Except Trap State) (s : State) :
    (∃ t, f s = .ok t ∧ s.attempt f = .next t) ∨ (∃ tr, f s = .error tr ∧ s.attempt f = .next (s.takeFault tr)) := by
  unfold State.attempt
  cases h : f s with
  | ok t => exact .inl ⟨t, rfl, rfl⟩
  | error tr => exact .inr ⟨tr, rfl, rfl⟩

/-! ### Operand values -/

theorem State.effAddr_congr {s t : State} (h : t.rb = s.rb) : t.effAddr = s.effAddr := by
  funext p; simp [State.effAddr, h]

theorem State.value_congr {s t : State} (hm : t.mem = s.mem) (hc : t.cfg = s.cfg) (hr : t.rb = s.rb) :
    t.value = s.value := by
  funext p; simp [State.value, State.effAddr_congr hr, State.memRead_congr hm hc]

/-- A readable parameter with an effective address has it mapped. -/
theorem State.mapped_of_value {s : State} {p : Param} {v ea : Int} (h : s.value p = .ok v)
    (he : s.effAddr p = some ea) : s.mapped ea = true := by
  unfold State.value at h
  rw [he] at h
  exact (State.memRead_ok_iff.1 h).1

/-! ### The policy check -/

/-- The policy check holds back exactly a category other than OUT whose bit is set, without a grant. -/
theorem State.yieldsBefore_iff (s : State) (op : Opcode) :
    s.yieldsBefore op = true ↔
      op ≠ .out ∧ s.breakPolicy.getLsbD (policyBit op) = true ∧ s.resumeGrant = false := by
  cases op <;> simp [State.yieldsBefore, State.gated, State.inPolicy]

/-! ### RUN entry -/

/-- What a RUN entry that answers a next state can have done. -/
theorem State.runEntry_next {c : RunCall} {s t : State} (h : s.runEntry c = .next t) :
    ((s.status = .halted ∨ s.status = .faulted) ∧ t = s) ∨
    (c.wordsOnly s.cfg.wordBits = true ∧
      ((s.status = .running ∧ t = s.attachQueues c) ∨
       (s.status = .suspended ∧ s.yieldMarker = .early ∧ t = (s.attachQueues c).resumeEarly) ∨
       (s.status = .suspended ∧ s.yieldMarker = .late ∧ t = (s.attachQueues c).resumeLate))) := by
  unfold State.runEntry at h
  cases hs : s.status <;> simp only [hs] at h
  · split_ifs at h with hw
    cases h
    exact .inr ⟨hw, .inl ⟨rfl, rfl⟩⟩
  · cases hm : s.yieldMarker <;> simp only [hm] at h
    · cases h
    · split_ifs at h with hw
      cases h
      exact .inr ⟨hw, .inr (.inl ⟨rfl, rfl, rfl⟩)⟩
    · split_ifs at h with hw
      cases h
      exact .inr ⟨hw, .inr (.inr ⟨rfl, rfl, rfl⟩)⟩
  · cases h; exact .inl ⟨.inl rfl, rfl⟩
  · cases h; exact .inl ⟨.inr rfl, rfl⟩

/-- A RUN entry stops with a fault only on a Suspended state without a marker. -/
theorem State.runEntry_fault {c : RunCall} {s : State} {f : Fault} (h : s.runEntry c = .fault f) :
    s.status = .suspended ∧ s.yieldMarker = .none := by
  unfold State.runEntry at h
  cases hs : s.status <;> simp only [hs] at h
  · split_ifs at h
  · cases hm : s.yieldMarker <;> simp only [hm] at h
    · exact ⟨rfl, rfl⟩
    all_goals split_ifs at h
  all_goals cases h

/-- A RUN entry refuses only queues holding a value that is not a Word. -/
theorem State.runEntry_refused {c : RunCall} {s : State} {r : Refusal} (h : s.runEntry c = .refused r) :
    r = .channelValueNotWord ∧ c.wordsOnly s.cfg.wordBits = false ∧ (s.status = .running ∨ s.status = .suspended) := by
  unfold State.runEntry at h
  cases hs : s.status <;> simp only [hs] at h
  · split_ifs at h with hw
    cases h
    exact ⟨rfl, by simpa using hw, .inl rfl⟩
  · cases hm : s.yieldMarker <;> simp only [hm] at h
    · cases h
    all_goals
      split_ifs at h with hw
      cases h
      exact ⟨rfl, by simpa using hw, .inr rfl⟩
  all_goals cases h

/-- What waiting for the host's next RUN can do. -/
theorem State.awaitRun_cases (s : State) :
    (s.calls = [] ∧ s.awaitRun = .next s) ∨
    (∃ c cs, s.calls = c :: cs ∧ s.awaitRun = (s.setCalls cs).runEntry c) := by
  unfold State.awaitRun
  cases h : s.calls with
  | nil => exact .inl ⟨rfl, rfl⟩
  | cons c cs => exact .inr ⟨c, cs, rfl, rfl⟩

/-- The k-th of the words from an address on is the word there. -/
theorem State.memRead_of_wordsAt {s : State} {a : Int} {n k : Nat} {w : Int} (h : (s.wordsAt a n)[k]? = some w) :
    s.memRead (a + k) = .ok w := by
  induction n generalizing a k with
  | zero => simp [State.wordsAt] at h
  | succ n ih =>
    unfold State.wordsAt at h
    cases hr : s.memRead a with
    | error t => simp [hr] at h
    | ok v =>
      rw [hr] at h
      cases k with
      | zero => simp only [List.getElem?_cons_zero, Option.some.injEq] at h; subst h; simpa using hr
      | succ k =>
        simp only [List.getElem?_cons_succ] at h
        have := ih h
        have e : a + ((k + 1 : Nat) : Int) = a + 1 + (k : Int) := by push_cast; ring
        rw [e]; exact this

end Sys2Proof.Machine
end

