-- ==== Sys2Proof/Laws/Operands.lean ====
section
/-! SUPPORT. What operand resolution can do, said once. -/

namespace Sys2Proof.Machine

theorem State.resolveFrom_congr {s t : State} (hm : t.mem = s.mem) (hc : t.cfg = s.cfg) (hr : t.rb = s.rb) :
    t.resolveFrom = s.resolveFrom := by
  funext l ps
  induction ps generalizing l with
  | nil => rfl
  | cons p ps ih =>
    simp only [State.resolveFrom, State.value_congr hm hc hr, State.effAddr_congr hr]
    cases s.value p with
    | error t => rfl
    | ok v => exact ih _

/-- Resolution depends only on memory, the parameters and rb. -/
theorem State.resolve_congr {s t : State} (hm : t.mem = s.mem) (hc : t.cfg = s.cfg) (hr : t.rb = s.rb) :
    t.resolve = s.resolve := by
  funext ps; simp [State.resolve, State.resolveFrom_congr hm hc hr]

theorem State.resolveFrom_nil (s : State) (l : Latches) : s.resolveFrom l [] = .ok l := rfl

theorem State.resolveFrom_ok_iff {s : State} {l l' : Latches} {p : Param} {ps : List Param} :
    s.resolveFrom l (p :: ps) = .ok l' ↔
      ∃ v, s.value p = .ok v ∧ s.resolveFrom (l.push v (s.effAddr p)) ps = .ok l' := by
  rw [State.resolveFrom]
  cases s.value p with
  | error t => simp
  | ok v => simp

/-- One parameter resolved. -/
theorem State.resolve_one {s : State} {p0 : Param} {l : Latches} :
    s.resolve [p0] = .ok l ↔ ∃ v0, s.value p0 = .ok v0 ∧ l = { val := [v0], dest := s.destOf [p0] } := by
  unfold State.resolve
  simp only [State.resolveFrom_ok_iff, State.resolveFrom_nil, Except.ok.injEq]
  exact ⟨fun ⟨v, hv, hl⟩ => ⟨v, hv, hl ▸ rfl⟩, fun ⟨v, hv, hl⟩ => ⟨v, hv, hl ▸ rfl⟩⟩

/-- Two parameters resolved. -/
theorem State.resolve_two {s : State} {p0 p1 : Param} {l : Latches} :
    s.resolve [p0, p1] = .ok l ↔ ∃ v0 v1, s.value p0 = .ok v0 ∧ s.value p1 = .ok v1 ∧
      l = { val := [v0, v1], dest := s.destOf [p0, p1] } := by
  unfold State.resolve
  simp only [State.resolveFrom_ok_iff, State.resolveFrom_nil, Except.ok.injEq]
  exact ⟨fun ⟨v, hv, w, hw, hl⟩ => ⟨v, w, hv, hw, hl ▸ rfl⟩, fun ⟨v, w, hv, hw, hl⟩ => ⟨v, hv, w, hw, hl ▸ rfl⟩⟩

/-- Three parameters resolved. -/
theorem State.resolve_three {s : State} {p0 p1 p2 : Param} {l : Latches} :
    s.resolve [p0, p1, p2] = .ok l ↔ ∃ v0 v1 v2, s.value p0 = .ok v0 ∧ s.value p1 = .ok v1 ∧ s.value p2 = .ok v2 ∧
      l = { val := [v0, v1, v2], dest := s.destOf [p0, p1, p2] } := by
  unfold State.resolve
  simp only [State.resolveFrom_ok_iff, State.resolveFrom_nil, Except.ok.injEq]
  exact ⟨fun ⟨v, hv, w, hw, u, hu, hl⟩ => ⟨v, w, u, hv, hw, hu, hl ▸ rfl⟩,
    fun ⟨v, w, u, hv, hw, hu, hl⟩ => ⟨v, hv, w, hw, u, hu, hl ▸ rfl⟩⟩

/-- The destination after resolution, from the destination before it. -/
theorem State.dest_of_resolveFrom {s : State} {ps : List Param} {l l' : Latches} (h : s.resolveFrom l ps = .ok l') :
    l'.dest = ps.foldl (fun d p => (s.effAddr p).or d) l.dest := by
  induction ps generalizing l with
  | nil => cases h; rfl
  | cons p ps ih =>
    obtain ⟨v, -, h⟩ := State.resolveFrom_ok_iff.1 h
    simpa [Latches.push] using ih h

/-- The destination latch after resolution is `destOf`. -/
theorem State.dest_of_resolve {s : State} {ps : List Param} {l : Latches} (h : s.resolve ps = .ok l) :
    l.dest = s.destOf ps := State.dest_of_resolveFrom h

/-- A destination that was mapped, or absent, before resolution is so after it. -/
theorem State.mapped_dest_of_resolveFrom {s : State} {ps : List Param} {l l' : Latches}
    (h : s.resolveFrom l ps = .ok l') (h0 : ∀ d, l.dest = some d → s.mapped d = true) :
    ∀ d, l'.dest = some d → s.mapped d = true := by
  induction ps generalizing l with
  | nil => cases h; exact h0
  | cons p ps ih =>
    obtain ⟨v, hv, h⟩ := State.resolveFrom_ok_iff.1 h
    refine ih h fun d hd => ?_
    cases he : s.effAddr p with
    | none => rw [he] at hd; exact h0 d hd
    | some ea =>
      rw [he] at hd
      cases hd
      exact State.mapped_of_value hv he

/-- A resolved destination is a mapped address: the decoder has read it. -/
theorem State.mapped_dest {s : State} {ps : List Param} {l : Latches} {d : Int} (h : s.resolve ps = .ok l)
    (hd : l.dest = some d) : s.mapped d = true :=
  State.mapped_dest_of_resolveFrom h (fun _ h => by cases h) d hd

/-- An instruction's handler part always answers a next state: a fault taken, or what the handler gives on the resolved
latches. -/
theorem State.runHandler_cases (ps : List Param) (hd : Latches → State → Except Trap State) (s : State) :
    (∃ tr, State.runHandler ps hd s = .next (s.takeFault tr)) ∨
    (∃ l t, s.resolve ps = .ok l ∧ hd l s = .ok t ∧ State.runHandler ps hd s = .next t) := by
  unfold State.runHandler
  rcases State.attempt_cases (fun s => match s.resolve ps with | .error t => .error t | .ok l => hd l s) s with
    ⟨t, hf, h⟩ | ⟨tr, -, h⟩
  · cases hr : s.resolve ps with
    | error e => rw [hr] at hf; cases hf
    | ok l => simp only [hr] at hf; exact .inr ⟨l, t, rfl, hf, h⟩
  · exact .inl ⟨tr, h⟩

/-- When the operands resolve, the handler decides. -/
theorem State.runHandler_of_resolve {ps : List Param} {hd : Latches → State → Except Trap State} {s : State}
    {l : Latches} (h : s.resolve ps = .ok l) :
    State.runHandler ps hd s = match hd l s with | .ok t => .next t | .error tr => .next (s.takeFault tr) := by
  cases hx : hd l s <;> simp only [State.runHandler, State.attempt, h, hx]

/-- When the operands do not resolve, that fault is taken. -/
theorem State.runHandler_of_error {ps : List Param} {hd : Latches → State → Except Trap State} {s : State}
    {tr : Trap} (h : s.resolve ps = .error tr) : State.runHandler ps hd s = .next (s.takeFault tr) := by
  simp only [State.runHandler, State.attempt, h]

end Sys2Proof.Machine
end

