-- ==== Sys2Proof/Laws/Exec.lean ====
section
/-! SUPPORT. Everything an instruction can do to the state, said once: what each handler gives, and `exec` as a
relation. -/

namespace Sys2Proof.Machine

/-! ### Flags -/

theorem State.checked_ok_iff {s : State} {r v : Int} :
    s.checked r = .ok v ↔ s.cfg.wordBits.inRange r = true ∧ v = r := by
  unfold State.checked
  split_ifs with h <;> simp [h, eq_comm]

theorem State.checked_of_inRange {s : State} {r : Int} (h : s.cfg.wordBits.inRange r = true) :
    s.checked r = .ok r := State.checked_ok_iff.2 ⟨h, rfl⟩

theorem State.checked_of_not_inRange {s : State} {r : Int} (h : s.cfg.wordBits.inRange r = false) :
    s.checked r = .error { cause := .arithmeticOverflow, info := r } := by
  simp [State.checked, h]

@[simp] theorem ltWord_eq (a b : Int) : ltWord a b = if a < b then 1 else 0 := by simp [ltWord, boolWord]

@[simp] theorem eqWord_eq (a b : Int) : eqWord a b = if a = b then 1 else 0 := by simp [eqWord, boolWord]

@[simp] theorem isZero_eq (a : Int) : isZero a = decide (a = 0) := rfl

/-! ### Handlers -/

theorem Latches.destination_ok_iff {l : Latches} {d : Int} : l.destination = .ok d ↔ l.dest = some d := by
  unfold Latches.destination
  cases l.dest <;> simp

/-- What the handler of ADD, MUL, LT and EQ gives when it does not fault. -/
theorem aluHandler_ok {result : State → Int → Int → Except Trap Int} {l : Latches} {s t : State}
    (h : aluHandler result l s = .ok t) :
    ∃ d r, l.dest = some d ∧ result s (l.v 0) (l.v 1) = .ok r ∧ s.mapped d = true ∧ t = (s.setCell d r).advance 4 := by
  unfold aluHandler at h
  cases hd : l.destination with
  | error e => simp [hd] at h
  | ok d =>
    cases hr : result s (l.v 0) (l.v 1) with
    | error e => simp [hd, hr] at h
    | ok r =>
      cases hw : s.memWrite d r with
      | error e => simp [hd, hr, hw] at h
      | ok u =>
        simp only [hd, hr, hw, Except.ok.injEq] at h
        obtain ⟨hm, rfl⟩ := State.memWrite_ok_iff.1 hw
        exact ⟨d, r, Latches.destination_ok_iff.1 hd, rfl, hm, h.symm⟩

/-- The handler of ADD, MUL, LT and EQ with a mapped destination and a result. -/
theorem aluHandler_of {result : State → Int → Int → Except Trap Int} {l : Latches} {s : State} {d r : Int}
    (hd : l.dest = some d) (hm : s.mapped d = true) (hr : result s (l.v 0) (l.v 1) = .ok r) :
    aluHandler result l s = .ok ((s.setCell d r).advance 4) := by
  simp [aluHandler, Latches.destination_ok_iff.2 hd, hr, State.memWrite_of_mapped hm]

/-- What the handler of IN gives when it does not fault. -/
theorem inHandler_ok {l : Latches} {s t : State} (h : inHandler l s = .ok t) :
    ∃ d v q, l.dest = some d ∧ s.inQ = v :: q ∧ s.mapped d = true ∧ t = ((s.setInQ q).setCell d v).advance 2 := by
  unfold inHandler at h
  cases hd : l.destination with
  | error e => simp [hd] at h
  | ok d =>
    cases hq : s.inQ with
    | nil => simp [hd, hq] at h
    | cons v q =>
      cases hw : (s.setInQ q).memWrite d v with
      | error e => simp [hd, hq, hw] at h
      | ok u =>
        simp only [hd, hq, hw, Except.ok.injEq] at h
        obtain ⟨hm, rfl⟩ := State.memWrite_ok_iff.1 hw
        exact ⟨d, v, q, Latches.destination_ok_iff.1 hd, rfl, hm, h.symm⟩

/-- The handler of IN with a mapped destination and a value waiting. -/
theorem inHandler_of {l : Latches} {s : State} {d v : Int} {q : List Int} (hd : l.dest = some d)
    (hq : s.inQ = v :: q) (hm : s.mapped d = true) :
    inHandler l s = .ok (((s.setInQ q).setCell d v).advance 2) := by
  have hm' : (s.setInQ q).mapped d = true := hm
  simp [inHandler, Latches.destination_ok_iff.2 hd, hq, State.memWrite_of_mapped hm']

/-- What the handler of RB gives when it does not fault. -/
theorem rbHandler_ok {l : Latches} {s t : State} (h : rbHandler l s = .ok t) :
    0 ≤ s.rb + l.v 0 ∧ s.cfg.wordBits.inRange (s.rb + l.v 0) = true ∧ t = (s.setRb (s.rb + l.v 0)).advance 2 := by
  unfold rbHandler at h
  split_ifs at h with hn
  cases hc : s.checked (s.rb + l.v 0) with
  | error e => simp [hc] at h
  | ok r =>
    obtain ⟨hr, rfl⟩ := State.checked_ok_iff.1 hc
    simp only [hc, Except.ok.injEq] at h
    exact ⟨by omega, hr, h.symm⟩

/-! ### Everything `exec` can do -/

/-- The next states an instruction can lead to: a fault taken, or its own effect. -/
inductive Effect (s : State) : Instr → State → Prop where
  | fault {i : Instr} (tr : Trap) : Effect s i (s.takeFault tr)
  | store {i : Instr} (p0 p1 p2 : Param) (l : Latches) (d r : Int)
      (is_alu : i = .add p0 p1 p2 ∨ i = .mul p0 p1 p2 ∨ i = .lt p0 p1 p2 ∨ i = .eq p0 p1 p2)
      (resolved : s.resolve [p0, p1, p2] = .ok l) (dest : l.dest = some d) (mapped : s.mapped d = true)
      (word : s.cfg.wordBits.inRange r = true ∨ r = 0 ∨ r = 1) :
      Effect s i ((s.setCell d r).advance 4)
  | popped (p0 : Param) (l : Latches) (d v : Int) (q : List Int)
      (resolved : s.resolve [p0] = .ok l) (dest : l.dest = some d) (mapped : s.mapped d = true)
      (front : s.inQ = v :: q) :
      Effect s (.inp p0) (((s.setInQ q).setCell d v).advance 2)
  | pushed (p0 : Param) (v : Int) (value : s.value p0 = .ok v) :
      Effect s (.out p0) ((s.pushOut v).advance 2).yieldLate
  | jumped {i : Instr} (p0 p1 : Param) (a : Int) (is_branch : i = .jnz p0 p1 ∨ i = .jz p0 p1)
      (value : s.value p1 = .ok a) : Effect s i (s.setPc a)
  | passed {i : Instr} (p0 p1 : Param) (is_branch : i = .jnz p0 p1 ∨ i = .jz p0 p1) : Effect s i (s.advance 3)
  | rebased (p0 : Param) (r : Int) (nonneg : 0 ≤ r) (word : s.cfg.wordBits.inRange r = true) :
      Effect s (.rb p0) ((s.setRb r).advance 2)
  | halted : Effect s .halt s.halt

/-- An ALU instruction's effect, from what its result can be. -/
theorem effect_of_alu {i : Instr} {p0 p1 p2 : Param} {s t : State} {result : State → Int → Int → Except Trap Int}
    (hi : i = .add p0 p1 p2 ∨ i = .mul p0 p1 p2 ∨ i = .lt p0 p1 p2 ∨ i = .eq p0 p1 p2)
    (hr : ∀ a b r, result s a b = .ok r → s.cfg.wordBits.inRange r = true ∨ r = 0 ∨ r = 1)
    (h : State.runHandler [p0, p1, p2] (aluHandler result) s = .next t) : Effect s i t := by
  rcases State.runHandler_cases [p0, p1, p2] (aluHandler result) s with ⟨tr, e⟩ | ⟨l, u, hl, hu, e⟩ <;>
    rw [h] at e <;> cases e
  · exact .fault tr
  · obtain ⟨d, r, hd, hr', hm, rfl⟩ := aluHandler_ok hu
    exact .store p0 p1 p2 l d r hi hl hd hm (hr _ _ _ hr')

/-- A branch instruction's effect. -/
theorem effect_of_branch {i : Instr} {p0 p1 : Param} {s t : State} {taken : Int → Bool}
    (hi : i = .jnz p0 p1 ∨ i = .jz p0 p1)
    (h : State.runHandler [p0, p1] (branchHandler taken) s = .next t) : Effect s i t := by
  rcases State.runHandler_cases [p0, p1] (branchHandler taken) s with ⟨tr, e⟩ | ⟨l, u, hl, hu, e⟩ <;>
    rw [h] at e <;> cases e
  · exact .fault tr
  · obtain ⟨v0, v1, -, h1, rfl⟩ := State.resolve_two.1 hl
    unfold branchHandler at hu
    split_ifs at hu <;> cases hu
    · exact .jumped p0 p1 _ hi h1
    · exact .passed p0 p1 hi

/-- Everything `exec` can do when it answers a next state. -/
theorem exec_effect {i : Instr} {s t : State} (h : exec i s = .next t) : Effect s i t := by
  cases i with
  | add p0 p1 p2 =>
    refine effect_of_alu (.inl rfl) (fun a b r hr => ?_) h
    obtain ⟨hc, rfl⟩ := State.checked_ok_iff.1 hr
    exact .inl hc
  | mul p0 p1 p2 =>
    refine effect_of_alu (.inr (.inl rfl)) (fun a b r hr => ?_) h
    obtain ⟨hc, rfl⟩ := State.checked_ok_iff.1 hr
    exact .inl hc
  | inp p0 =>
    rcases State.runHandler_cases [p0] inHandler s with ⟨tr, e⟩ | ⟨l, u, hl, hu, e⟩ <;>
      rw [show State.runHandler [p0] inHandler s = .next t from h] at e <;> cases e
    · exact .fault tr
    · obtain ⟨d, v, q, hd, hq, hm, rfl⟩ := inHandler_ok hu
      exact .popped p0 l d v q hl hd hm hq
  | out p0 =>
    rcases State.runHandler_cases [p0] outHandler s with ⟨tr, e⟩ | ⟨l, u, hl, hu, e⟩ <;>
      rw [show State.runHandler [p0] outHandler s = .next t from h] at e <;> cases e
    · exact .fault tr
    · obtain ⟨v, hv, rfl⟩ := State.resolve_one.1 hl
      cases hu
      exact .pushed p0 v hv
  | jnz p0 p1 => exact effect_of_branch (.inl rfl) h
  | jz p0 p1 => exact effect_of_branch (.inr rfl) h
  | lt p0 p1 p2 =>
    refine effect_of_alu (.inr (.inr (.inl rfl))) (fun a b r hr => ?_) h
    cases hr
    rw [ltWord_eq]; split_ifs <;> simp
  | eq p0 p1 p2 =>
    refine effect_of_alu (.inr (.inr (.inr rfl))) (fun a b r hr => ?_) h
    cases hr
    rw [eqWord_eq]; split_ifs <;> simp
  | rb p0 =>
    rcases State.runHandler_cases [p0] rbHandler s with ⟨tr, e⟩ | ⟨l, u, hl, hu, e⟩ <;>
      rw [show State.runHandler [p0] rbHandler s = .next t from h] at e <;> cases e
    · exact .fault tr
    · obtain ⟨hn, hr, rfl⟩ := rbHandler_ok hu
      exact .rebased p0 _ hn hr
  | halt =>
    have e : State.runHandler [] haltHandler s = .next s.halt := rfl
    rw [show State.runHandler [] haltHandler s = .next t from h] at e
    cases e
    exact .halted

/-- `exec` always answers a next state. -/
theorem exec_next (i : Instr) (s : State) : ∃ t, exec i s = .next t := by
  have key : ∀ ps hd, ∃ t, State.runHandler ps hd s = .next t := fun ps hd => by
    rcases State.runHandler_cases ps hd s with ⟨tr, e⟩ | ⟨l, u, -, -, e⟩
    · exact ⟨_, e⟩
    · exact ⟨_, e⟩
  cases i with
  | halt => exact ⟨_, rfl⟩
  | _ => exact key _ _

end Sys2Proof.Machine
end

