-- ==== Sys2Proof/Laws/Interface.lean ====
section
/-! SUPPORT. What a construction checks and gives, said once. -/

namespace Sys2Proof.Machine

/-- The state a successful construction gives: the reset state but for its arguments and its memory. -/
def State.fresh (cfg : Config) (program : List Int) (id : List Char) (policy : BitVec 10) : State :=
  { State.reset with cfg := cfg, mem := Memory.load [] 0 program, breakPolicy := policy, id := id }

/-- When a construction succeeds, and what it gives. -/
theorem State.construct_ok_iff {cfg : Config} {program : List Int} {id : List Char} {policy : BitVec 10} {s : State} :
    State.construct cfg program id policy = .ok s ↔
      cfg.valid = true ∧ program.length ≤ cfg.capacity ∧ (∀ v ∈ program, cfg.wordBits.inRange v = true) ∧
        s = State.fresh cfg program id policy := by
  unfold State.construct
  split_ifs with h1 h2 h3
  · simp only [false_iff]
    rintro ⟨h, -⟩
    simp [h] at h1
  · simp only [false_iff]
    rintro ⟨-, h, -⟩
    omega
  · simp only [false_iff]
    rintro ⟨-, -, h, -⟩
    obtain ⟨x, hx, hf⟩ : ∃ x ∈ program, cfg.wordBits.inRange x = false := by simpa using h3
    rw [h x hx] at hf
    cases hf
  · have h3' : ∀ v ∈ program, cfg.wordBits.inRange v = true := by simpa using h3
    constructor
    · intro h
      cases h
      exact ⟨by simpa using h1, by omega, h3', rfl⟩
    · rintro ⟨-, -, -, rfl⟩
      rfl

/-- `State.reset` is the construction with the default parameters and empty arguments. -/
theorem reset_constructed : State.construct Config.default [] [] 0#10 = .ok State.reset := rfl

end Sys2Proof.Machine
end

