-- ==== Sys2Proof/Laws/PerInstr.lean ====
section
/-! SUPPORT. Facts about instructions as syntax, one lemma per constructor. -/

namespace Sys2Proof.Laws

/-- The encoding of an instruction has as many words as its opcode's length (spec/30_encoding.md R90, R93). -/
def EncodeLength.Statement (i : Instr) : Prop := (encode i).length = i.length

theorem EncodeLength.add (p0 p1 p2 : Param) : EncodeLength.Statement (.add p0 p1 p2) := rfl
theorem EncodeLength.mul (p0 p1 p2 : Param) : EncodeLength.Statement (.mul p0 p1 p2) := rfl
theorem EncodeLength.inp (p0 : Param) : EncodeLength.Statement (.inp p0) := rfl
theorem EncodeLength.out (p0 : Param) : EncodeLength.Statement (.out p0) := rfl
theorem EncodeLength.jnz (p0 p1 : Param) : EncodeLength.Statement (.jnz p0 p1) := rfl
theorem EncodeLength.jz (p0 p1 : Param) : EncodeLength.Statement (.jz p0 p1) := rfl
theorem EncodeLength.lt (p0 p1 p2 : Param) : EncodeLength.Statement (.lt p0 p1 p2) := rfl
theorem EncodeLength.eq (p0 p1 p2 : Param) : EncodeLength.Statement (.eq p0 p1 p2) := rfl
theorem EncodeLength.rb (p0 : Param) : EncodeLength.Statement (.rb p0) := rfl
theorem EncodeLength.halt : EncodeLength.Statement .halt := rfl

/-- The opcode word of an instruction decodes to its opcode and the modes of its parameters (spec/30_encoding.md R91). -/
def OpwordDecodes.Statement (i : Instr) : Prop :=
  ∃ h, decodeOpword i.opword = .ok h ∧ h.op = i.opcode ∧
    ∀ (k : Nat) (p : Param), i.params[k]? = some p → h.mode k = p.mode

/-- The opcode word of three modes, decoded. -/
theorem decodeOpword_three (op : Opcode) (m0 m1 m2 : Mode) (h : op.arity = 3) :
    decodeOpword ((op.value + 100 * (m0.digit + 10 * (m1.digit + 10 * m2.digit)) : Nat) : Int) =
      .ok { op := op, m0 := m0, m1 := m1, m2 := m2 } := by
  revert h; cases op <;> cases m0 <;> cases m1 <;> cases m2 <;> decide

/-- The opcode word of two modes, decoded. -/
theorem decodeOpword_two (op : Opcode) (m0 m1 : Mode) (h : op.arity = 2) :
    decodeOpword ((op.value + 100 * (m0.digit + 10 * m1.digit) : Nat) : Int) =
      .ok { op := op, m0 := m0, m1 := m1, m2 := .position } := by
  revert h; cases op <;> cases m0 <;> cases m1 <;> decide

/-- The opcode word of one mode, decoded. -/
theorem decodeOpword_one (op : Opcode) (m0 : Mode) (h : op.arity = 1) :
    decodeOpword ((op.value + 100 * m0.digit : Nat) : Int) =
      .ok { op := op, m0 := m0, m1 := .position, m2 := .position } := by
  revert h; cases op <;> cases m0 <;> decide

theorem opwordDecodes_three {i : Instr} {p0 p1 p2 : Param} (hp : i.params = [p0, p1, p2]) (ha : i.opcode.arity = 3) :
    OpwordDecodes.Statement i := by
  refine ⟨{ op := i.opcode, m0 := p0.mode, m1 := p1.mode, m2 := p2.mode }, ?_, rfl, fun k p hk => ?_⟩
  · rw [← decodeOpword_three i.opcode _ _ _ ha, Instr.opword, hp]; rfl
  · rw [hp] at hk
    match k with
    | 0 => cases hk; rfl
    | 1 => cases hk; rfl
    | 2 => cases hk; rfl
    | k + 3 => cases hk

theorem opwordDecodes_two {i : Instr} {p0 p1 : Param} (hp : i.params = [p0, p1]) (ha : i.opcode.arity = 2) :
    OpwordDecodes.Statement i := by
  refine ⟨{ op := i.opcode, m0 := p0.mode, m1 := p1.mode, m2 := .position }, ?_, rfl, fun k p hk => ?_⟩
  · rw [← decodeOpword_two i.opcode _ _ ha, Instr.opword, hp]; rfl
  · rw [hp] at hk
    match k with
    | 0 => cases hk; rfl
    | 1 => cases hk; rfl
    | k + 2 => cases hk

theorem opwordDecodes_one {i : Instr} {p0 : Param} (hp : i.params = [p0]) (ha : i.opcode.arity = 1) :
    OpwordDecodes.Statement i := by
  refine ⟨{ op := i.opcode, m0 := p0.mode, m1 := .position, m2 := .position }, ?_, rfl, fun k p hk => ?_⟩
  · rw [← decodeOpword_one i.opcode _ ha, Instr.opword, hp]; rfl
  · rw [hp] at hk
    match k with
    | 0 => cases hk; rfl
    | k + 1 => cases hk

theorem OpwordDecodes.add (p0 p1 p2 : Param) : OpwordDecodes.Statement (.add p0 p1 p2) := opwordDecodes_three rfl rfl
theorem OpwordDecodes.mul (p0 p1 p2 : Param) : OpwordDecodes.Statement (.mul p0 p1 p2) := opwordDecodes_three rfl rfl
theorem OpwordDecodes.inp (p0 : Param) : OpwordDecodes.Statement (.inp p0) := opwordDecodes_one rfl rfl
theorem OpwordDecodes.out (p0 : Param) : OpwordDecodes.Statement (.out p0) := opwordDecodes_one rfl rfl
theorem OpwordDecodes.jnz (p0 p1 : Param) : OpwordDecodes.Statement (.jnz p0 p1) := opwordDecodes_two rfl rfl
theorem OpwordDecodes.jz (p0 p1 : Param) : OpwordDecodes.Statement (.jz p0 p1) := opwordDecodes_two rfl rfl
theorem OpwordDecodes.lt (p0 p1 p2 : Param) : OpwordDecodes.Statement (.lt p0 p1 p2) := opwordDecodes_three rfl rfl
theorem OpwordDecodes.eq (p0 p1 p2 : Param) : OpwordDecodes.Statement (.eq p0 p1 p2) := opwordDecodes_three rfl rfl
theorem OpwordDecodes.rb (p0 : Param) : OpwordDecodes.Statement (.rb p0) := opwordDecodes_one rfl rfl
theorem OpwordDecodes.halt : OpwordDecodes.Statement .halt :=
  ⟨{ op := .halt, m0 := .position, m1 := .position, m2 := .position }, rfl, rfl, fun k p hk => by cases hk⟩

end Sys2Proof.Laws
end

