-- ==== Sys2Proof/Laws/Step.lean ====
section
/-! SUPPORT. What fetch and one step can do, said once. -/

namespace Sys2Proof.Machine

/-- What a fetched parameter is: its operand word, readable, and its value readable. -/
theorem State.fetchParam_ok {s : State} {k : Nat} {m : Mode} {p : Param} (h : s.fetchParam k m = .ok p) :
    s.memRead (s.pc + 1 + k) = .ok p.raw ∧ p.mode = m ∧ ∃ v, s.value p = .ok v := by
  unfold State.fetchParam at h
  cases hr : s.memRead (s.pc + 1 + k) with
  | error t => simp [hr] at h
  | ok raw =>
    cases hv : s.value { mode := m, raw := raw } with
    | error t => simp [hr, hv] at h
    | ok v =>
      simp only [hr, hv, Except.ok.injEq] at h
      subst h
      exact ⟨rfl, rfl, v, hv⟩

/-- What a successful fetch has read. -/
theorem State.fetchInstr_ok {s : State} {i : Instr} (h : s.fetchInstr = .ok i) :
    ∃ w hd, s.memRead s.pc = .ok w ∧ decodeOpword w = .ok hd ∧ i.opcode = hd.op ∧
      ∀ (k : Nat) (p : Param), i.params[k]? = some p →
        s.memRead (s.pc + 1 + k) = .ok p.raw ∧ p.mode = hd.mode k ∧ ∃ v, s.value p = .ok v := by
  unfold State.fetchInstr at h
  cases hr : s.memRead s.pc with
  | error t => simp [hr] at h
  | ok w =>
    cases hd : decodeOpword w with
    | error e => simp [hr, hd] at h
    | ok hh =>
      simp only [hr, hd] at h
      obtain ⟨ho, -, hp⟩ := Head.build_ok h
      exact ⟨w, hh, rfl, hd, ho, fun k p hk => State.fetchParam_ok (hp k p hk)⟩

/-- Fetch depends only on memory, the parameters, rb and pc. -/
theorem State.fetchInstr_congr {s t : State} (hm : t.mem = s.mem) (hc : t.cfg = s.cfg) (hr : t.rb = s.rb)
    (hp : t.pc = s.pc) : t.fetchInstr = s.fetchInstr := by
  have h : t.fetchParam = s.fetchParam := by
    funext k m
    simp [State.fetchParam, State.memRead_congr hm hc, State.value_congr hm hc hr, hp]
  simp [State.fetchInstr, State.memRead_congr hm hc, h, hp]

/-- Everything the engine's step can do: take a fetch fault, yield early, or run the fetched instruction. -/
theorem engineStep_cases (s : State) :
    (∃ tr, s.fetchInstr = .error tr ∧ engineStep s = .next (s.takeFault tr)) ∨
    (∃ i, s.fetchInstr = .ok i ∧ s.yieldsBefore i.opcode = true ∧ engineStep s = .next s.yieldEarly) ∨
    (∃ i, s.fetchInstr = .ok i ∧ s.yieldsBefore i.opcode = false ∧ engineStep s = exec i s.clearGrant) := by
  unfold engineStep
  cases hf : s.fetchInstr with
  | error tr => exact .inl ⟨tr, rfl, rfl⟩
  | ok i =>
    cases hy : s.yieldsBefore i.opcode with
    | true => exact .inr (.inl ⟨i, rfl, hy, by simp [hy]⟩)
    | false => exact .inr (.inr ⟨i, rfl, hy, by simp [hy]⟩)

/-- The step of a Running state is the engine's. -/
theorem step_running {s : State} (h : s.status = .running) : step s = engineStep s := by simp [step, h]

/-- The step of a state that is not Running waits for the host's RUN. -/
theorem step_not_running {s : State} (h : s.status ≠ .running) : step s = s.awaitRun := by
  unfold step
  cases hs : s.status <;> first | exact absurd hs h | rfl

end Sys2Proof.Machine
end

