-- ==== Sys2Proof/Tests/Slice0.lean ====
section
/-! SUPPORT. Tests with expected results from the spec (spec/95_test_vectors.md unless said otherwise), the WellFormed
smoke tests, and for every statement with hypotheses a concrete state and operands that meet them. -/

namespace Sys2Proof.Tests

open Sys2Proof.Machine

/-! ### Helpers -/

/-- A 64-bit instance with 16 cells that holds these words from address 0. -/
def demo (program : List Int) : State :=
  { State.reset with cfg := { wordBits := .bounded 64, capacity := 16 }, mem := Memory.load [] 0 program }

/-- What one looks at in the next state of an outcome. -/
def after {α : Type} (o : Host.Outcome State Machine.Fault Refusal) (f : State → α) : Option α :=
  match o with
  | .next t => some (f t)
  | .fault _ => none
  | .refused _ => none

/-- A POSITION, an IMMEDIATE and a RELATIVE parameter. -/
def pos (a : Int) : Param := { mode := .position, raw := a }
def imm (a : Int) : Param := { mode := .immediate, raw := a }
def rel (a : Int) : Param := { mode := .relative, raw := a }

/-- The reply of an outcome, for comparing two outcomes. -/
def nextOf (o : Host.Outcome State Machine.Fault Refusal) : Option State := after o id

/-! ### WellFormed smoke tests: one ill-formed term for each check -/

theorem test_wf_accepts_largest_word : Instr.wf (.bounded 64) (.add (imm 9223372036854775807) (pos 0) (rel (-9223372036854775808))) = true := by decide
theorem test_wf_refuses_too_large_first : Instr.wf (.bounded 64) (.out (imm 9223372036854775808)) = false := by decide
theorem test_wf_refuses_too_small_second : Instr.wf (.bounded 64) (.jnz (imm 0) (pos (-9223372036854775809))) = false := by decide
theorem test_wf_refuses_too_large_third : Instr.wf (.bounded 64) (.eq (imm 0) (imm 0) (rel 9223372036854775808)) = false := by decide
theorem test_wf_unbounded_accepts : Instr.wf .unbounded (.out (imm 9223372036854775808)) = true := by decide

/-! ### Decoding: a word written out from the spec's encoding for every constructor -/

theorem test_decode_add : decodeWords [1, 9, 10, 3] = .ok (.add (pos 9) (pos 10) (pos 3), []) := by decide
theorem test_decode_mul : decodeWords [1002, 4, 3, 4, 33] = .ok (.mul (pos 4) (imm 3) (pos 4), [33]) := by decide
theorem test_decode_in : decodeWords [203, 0] = .ok (.inp (rel 0), []) := by decide
theorem test_decode_out : decodeWords [90104, -7] = .ok (.out (imm (-7)), []) := by decide
theorem test_decode_jnz : decodeWords [2105, 1, 7] = .ok (.jnz (imm 1) (rel 7), []) := by decide
theorem test_decode_jz : decodeWords [1006, 101, 0] = .ok (.jz (pos 101) (imm 0), []) := by decide
theorem test_decode_lt : decodeWords [21207, 0, 8, 1] = .ok (.lt (rel 0) (imm 8) (rel 1), []) := by decide
theorem test_decode_eq : decodeWords [1008, 100, 16, 101] = .ok (.eq (pos 100) (imm 16) (pos 101), []) := by decide
theorem test_decode_rb : decodeWords [209, 0] = .ok (.rb (rel 0), []) := by decide
theorem test_decode_halt : decodeWords [99999, 5] = .ok (.halt, [5]) := by decide
theorem test_decode_rejects_dec14_to_18 :
    decodeOpword 98 = .error (.unknownOpcode 98) ∧ decodeOpword 0 = .error (.unknownOpcode 0) ∧
    decodeOpword 100 = .error (.unknownOpcode 100) ∧ decodeOpword 1011 = .error (.unknownOpcode 1011) ∧
    decodeOpword (-1) = .error (.unknownOpcode (-1)) := by decide
theorem test_decode_modes_dec19_to_22 :
    decodeOpword 301 = .error (.invalidMode 0) ∧ decodeOpword 30001 = .error (.invalidMode 2) ∧
    decodeOpword 904 = .error (.invalidMode 0) ∧
    decodeOpword 90004 = .ok { op := .out, m0 := .position, m1 := .position, m2 := .position } := by decide
theorem test_decode_missing_word : decodeWords [1, 0, 0] = .error (.missingWord 3) := by decide
theorem test_table_word_decodes :
    decodeTableWord 8 99 = some .halt ∧
    decodeTableWord 128 (109 + 2 ^ 64 * (2 ^ 64 - 1)) = some (.rb (imm (-1))) ∧ decodeTableWord 8 98 = none := by decide
theorem test_fetch_word_runs_first :
    after (step (State.reset.withFetchWord 128 (109 + 2 ^ 64 * 7))) (fun t => (t.rb, t.pc)) = some (7, 2) := by decide

/-! ### One step of each instruction -/

/-- X2: ADD #-3,#1,[5]. -/
theorem test_add_negative :
    after (step (demo [1101, -3, 1, 5, 99, 0])) (fun t => (t.mem.read 5, t.pc, t.status)) = some (-2, 4, .running) := by decide
/-- A7: ADD [5],#7,#9 writes to cell 5, the destination quirk. -/
theorem test_add_quirk :
    after (step (demo [11001, 5, 7, 9, 99, 100])) (fun t => (t.mem.read 5, t.mem.read 9, t.pc)) = some (107, 0, 4) := by decide
/-- X4: MUL of two negatives. -/
theorem test_mul_negatives : after (step (demo [1102, -3, -4, 5, 99, 0])) (fun t => t.mem.read 5) = some 12 := by decide
/-- X7: MUL (-2^63) by -1 overflows 64 bits and writes nothing. -/
theorem test_mul_overflow :
    after (step (demo [1102, -9223372036854775808, -1, 5, 99, 0])) (fun t => (t.fault, t.mem.read 5, t.pc)) =
      some (some { cause := .arithmeticOverflow, pc := 0, info := 9223372036854775808 }, 0, 0) := by decide
/-- X8: LT is signed. -/
theorem test_lt_signed : after (step (demo [1107, -1, 0, 5, 99, 9])) (fun t => t.mem.read 5) = some 1 := by decide
/-- X9: equal is not less. -/
theorem test_lt_equal : after (step (demo [1107, 3, 3, 5, 99, 9])) (fun t => t.mem.read 5) = some 0 := by decide
/-- X11 and X12. -/
theorem test_eq_equal : after (step (demo [1108, 0, 0, 5, 99, 9])) (fun t => t.mem.read 5) = some 1 := by decide
theorem test_eq_opposite : after (step (demo [1108, -5, 5, 5, 99, 9])) (fun t => t.mem.read 5) = some 0 := by decide
/-- I7: IN takes the front of the queue. -/
theorem test_in_front :
    after (step { demo [3, 5, 3, 6, 99, 0, 0] with inQ := [10, 20] }) (fun t => (t.mem.read 5, t.inQ, t.pc)) =
      some (10, [20], 2) := by decide
/-- F4: NoDestination is checked before the queue. -/
theorem test_in_no_destination :
    after (step (demo [103, 0])) (fun t => (t.status, t.fault)) =
      some (.faulted, some { cause := .noDestination, pc := 0, info := 0 }) := by decide
/-- Y3: OUT in the policy never yields early. -/
theorem test_out_late :
    after (step { demo [104, 5, 99] with breakPolicy := 8#10 }) (fun t => (t.outQ, t.pc, t.status, t.yieldMarker)) =
      some ([5], 2, .suspended, .late) := by decide
/-- A5: OUT of a cell at CAPACITY faults at decode. -/
theorem test_out_unmapped :
    after (step (demo [4, 16, 99])) (fun t => t.fault) = some (some { cause := .memoryFault, pc := 0, info := 16 }) := by decide
/-- B3 and B2. -/
theorem test_jnz_negative_taken : after (step (demo [1105, -5, 7, 99])) (fun t => t.pc) = some 7 := by decide
theorem test_jnz_not_taken : after (step (demo [1105, 0, 7, 99])) (fun t => t.pc) = some 3 := by decide
/-- B5 and B4b. -/
theorem test_jz_to_negative : after (step (demo [1106, 0, -4])) (fun t => (t.pc, t.status)) = some (-4, .running) := by decide
theorem test_jz_not_taken : after (step (demo [1106, -1, 7, 99])) (fun t => t.pc) = some 3 := by decide
/-- R4, its second step: RB reads its operand with the old base. -/
theorem test_rb_relative :
    after (step { demo [109, 5, 209, 0, 99, 7] with pc := 2, rb := 5 }) (fun t => (t.rb, t.pc)) = some (12, 4) := by decide
/-- R3: a negative base faults and keeps rb. -/
theorem test_rb_negative :
    after (step (demo [109, -1, 99])) (fun t => (t.fault, t.rb)) =
      some (some { cause := .invalidRelativeBase, pc := 0, info := -1 }, 0) := by decide
/-- H3: HALT with unused mode digits keeps pc. -/
theorem test_halt_keeps_pc : after (step (demo [10099])) (fun t => (t.status, t.pc)) = some (.halted, 0) := by decide

/-! ### The step around an instruction -/

/-- Y6: a decode fault comes before the policy check. -/
theorem test_decode_fault_before_policy :
    after (step { demo [1, 100, 0, 0] with breakPolicy := 1#10 }) (fun t => (t.status, t.fault)) =
      some (.faulted, some { cause := .memoryFault, pc := 0, info := 100 }) := by decide
/-- F3: the value of p0 is read before the operand word of p1 (capacity 2). -/
theorem test_value_before_next_operand :
    after (step { demo [1, 100] with cfg := { wordBits := .bounded 64, capacity := 2 } }) (fun t => t.fault) =
      some (some { cause := .memoryFault, pc := 0, info := 100 }) := by decide
/-- F1: InvalidMode before any operand word (capacity 1). -/
theorem test_invalid_mode_first :
    after (step { demo [30001] with cfg := { wordBits := .bounded 64, capacity := 1 } }) (fun t => t.fault) =
      some (some { cause := .invalidMode, pc := 0, info := 2 }) := by decide
/-- Y1, run 1: the early yield changes nothing else. -/
theorem test_early_yield :
    after (step { demo [1101, 1, 2, 5, 99, 0] with breakPolicy := 1#10 })
      (fun t => (t.status, t.yieldMarker, t.pc, t.mem.read 5)) = some (.suspended, .early, 0, 0) := by decide
/-- Y1, entry of run 2: the RUN grants one pass. -/
theorem test_early_resume :
    after (step { demo [1101, 1, 2, 5, 99, 0] with
        breakPolicy := 1#10, status := .suspended, yieldMarker := .early,
        calls := [{ inQ := .same [], outQ := .same [] }] })
      (fun t => (t.status, t.yieldMarker, t.resumeGrant, t.calls)) = some (.running, .none, true, []) := by decide
/-- F7 and F8: the clamped and the empty diagnostic window. -/
theorem test_diag_windows :
    ({ demo [98] with status := .faulted, fault := some { cause := .unknownOpcode, pc := 0, info := 98 } } : State).diagWindow
      = some (0, 7) ∧
    ({ demo [] with status := .faulted, fault := some { cause := .memoryFault, pc := 100, info := 100 } } : State).diagWindow
      = none := by decide

/-! ### Witnesses: the hypotheses of every statement, met -/

theorem witness_OpcodeWordDecodesByItsDigits :
    decodeOpword 22207 = .ok { op := .lt, m0 := .relative, m1 := .relative, m2 := .relative } ∧
    decodeOpword 1105 = .ok { op := .jnz, m0 := .immediate, m1 := .immediate, m2 := .position } ∧
    decodeOpword 4 = .ok { op := .out, m0 := .position, m1 := .position, m2 := .position } ∧
    decodeOpword 99 = .ok { op := .halt, m0 := .position, m1 := .position, m2 := .position } := by decide
theorem witness_UnusedDigitsIgnored :
    ∃ w h, decodeOpword w = .ok h ∧ h.op.arity = 1 := ⟨104, { op := .out, m0 := .immediate, m1 := .position, m2 := .position }, by decide⟩
theorem witness_UnknownOpcodeFaultsAtItsPc :
    ∃ (s : State) (w : Int), s.status = .running ∧ s.memRead s.pc = .ok w ∧ 0 ≤ w ∧
      w.toNat % 100 ∉ [1, 2, 3, 4, 5, 6, 7, 8, 9, 99] := ⟨demo [98], 98, by decide⟩
theorem witness_NegativeOpcodeWordFaults :
    ∃ (s : State) (w : Int), s.status = .running ∧ s.memRead s.pc = .ok w ∧ w < 0 := ⟨demo [-1], -1, by decide⟩
theorem witness_InvalidModeFaultsBeforeOperands :
    ∃ (s : State) (w : Int) (op : Opcode) (i : Nat), s.status = .running ∧ s.memRead s.pc = .ok w ∧ 0 ≤ w ∧
      w.toNat % 100 = op.value ∧ i < op.arity ∧ 2 < digit (2 + i) w.toNat ∧ ∀ j < i, digit (2 + j) w.toNat ≤ 2 :=
  ⟨demo [30201], 30201, .add, 2, by decide⟩
theorem witness_ReadAfterWriteAndElsewhere :
    ∃ (s t : State) (a v : Int), Memory.wf s.mem ∧ s.memWrite a v = .ok t := ⟨demo [1], (demo [1]).setCell 15 4, 15, 4, by decide⟩
theorem witness_ConstructedMemoryHoldsProgramThenZeros :
    State.construct { wordBits := .bounded 64, capacity := 3 } [7, 8] [] 0#10 =
      .ok (State.fresh { wordBits := .bounded 64, capacity := 3 } [7, 8] [] 0#10) ∧
    (State.fresh { wordBits := .bounded 64, capacity := 3 } [7, 8] [] 0#10).memRead 0 = .ok 7 ∧
    (State.fresh { wordBits := .bounded 64, capacity := 3 } [7, 8] [] 0#10).memRead 1 = .ok 8 ∧
    (State.fresh { wordBits := .bounded 64, capacity := 3 } [7, 8] [] 0#10).memRead 2 = .ok 0 ∧
    (State.fresh { wordBits := .bounded 64, capacity := 3 } [7, 8] [] 0#10).memRead 3 = .error { cause := .memoryFault, info := 3 } ∧
    (State.fresh { wordBits := .bounded 64, capacity := 3 } [7, 8] [] 0#10).memRead (-1) =
      .error { cause := .memoryFault, info := -1 } := by decide
/-- The least capacity, the greatest for 64 bits, and one of each refusal. -/
theorem witness_ConstructionChecksAndResetValues :
    (∃ s, State.construct { wordBits := .unbounded, capacity := 1 } [5] ['a'] 3#10 = .ok s) ∧
    (∃ s, State.construct { wordBits := .bounded 64, capacity := 9223372036854775804 } [] [] 0#10 = .ok s) ∧
    State.construct { wordBits := .bounded 64, capacity := 9223372036854775805 } [] [] 0#10 = .error .badParameters ∧
    State.construct { wordBits := .bounded 63, capacity := 1 } [] [] 0#10 = .error .badParameters ∧
    State.construct { wordBits := .unbounded, capacity := 0 } [] [] 0#10 = .error .badParameters ∧
    State.construct { wordBits := .unbounded, capacity := 1 } [1, 2] [] 0#10 = .error .programTooLong ∧
    State.construct { wordBits := .bounded 64, capacity := 1 } [9223372036854775808] [] 0#10 = .error .programNotWords :=
  ⟨⟨_, rfl⟩, ⟨_, rfl⟩, by decide, by decide, by decide, by decide, by decide⟩
/-- A destination from the last, from an earlier and from no parameter. -/
theorem witness_DestinationIsLastAddressedParameter :
    (demo [5]).resolve [pos 0, imm 1, rel 3] = .ok { val := [5, 1, 0], dest := some 3 } ∧
    (demo [5]).resolve [pos 0, imm 1, imm 9] = .ok { val := [5, 1, 9], dest := some 0 } ∧
    (demo [5]).resolve [imm 1] = .ok { val := [1], dest := none } := by decide
theorem witness_WriteAddressAlreadyRead :
    ∃ (s : State) (ps : List Param) (l : Latches) (d : Int), s.resolve ps = .ok l ∧ l.dest = some d :=
  ⟨demo [5], [pos 15], { val := [0], dest := some 15 }, 15, by decide⟩
theorem witness_AddStoresSum :
    ∃ (p0 p1 p2 : Param) (s : State) (a b c d : Int), s.value p0 = .ok a ∧ s.value p1 = .ok b ∧ s.value p2 = .ok c ∧
      s.destOf [p0, p1, p2] = some d ∧ s.cfg.wordBits.inRange (a + b) = true :=
  ⟨pos 0, imm (-5), imm 9, demo [5], 5, -5, 9, 0, by decide⟩
theorem witness_MulStoresProduct :
    ∃ (p0 p1 p2 : Param) (s : State) (a b c d : Int), s.value p0 = .ok a ∧ s.value p1 = .ok b ∧ s.value p2 = .ok c ∧
      s.destOf [p0, p1, p2] = some d ∧ s.cfg.wordBits.inRange (a * b) = true :=
  ⟨imm (-9223372036854775808), imm 1, rel 15, demo [5], -9223372036854775808, 1, 0, 15, by decide⟩
/-- Less, and not less at equality. -/
theorem witness_LtStoresSignedComparison :
    ∃ (p0 p1 p2 : Param) (s : State) (a b c d : Int), s.value p0 = .ok a ∧ s.value p1 = .ok b ∧ s.value p2 = .ok c ∧
      s.destOf [p0, p1, p2] = some d ∧ a < b ∧ s.value p1 = s.value p1 ∧ ¬ b < b :=
  ⟨imm (-1), imm 0, pos 2, demo [5], -1, 0, 0, 2, by decide⟩
/-- Equal, and one apart. -/
theorem witness_EqStoresEquality :
    ∃ (p0 p1 p2 : Param) (s : State) (a c d : Int), s.value p0 = .ok a ∧ s.value p1 = .ok a ∧ s.value p2 = .ok c ∧
      s.destOf [p0, p1, p2] = some d ∧ s.value (imm (a + 1)) = .ok (a + 1) :=
  ⟨pos 0, imm 5, pos 2, demo [5], 5, 0, 2, by decide⟩
/-- Taken at -1 and not taken at 0. -/
theorem witness_JnzSetsPc :
    ∃ (p0 p0' p1 : Param) (s : State) (a : Int), s.value p0 = .ok (-1) ∧ s.value p0' = .ok 0 ∧ s.value p1 = .ok a :=
  ⟨imm (-1), pos 1, imm (-4), demo [5], -4, by decide⟩
/-- Taken at 0 and not taken at 1. -/
theorem witness_JzSetsPc :
    ∃ (p0 p0' p1 : Param) (s : State) (a : Int), s.value p0 = .ok 0 ∧ s.value p0' = .ok 1 ∧ s.value p1 = .ok a :=
  ⟨pos 1, imm 1, pos 0, demo [5], 5, by decide⟩
theorem witness_InPopsFrontIntoDestination :
    ∃ (p0 : Param) (s : State) (c d v : Int) (q : List Int), s.value p0 = .ok c ∧ s.effAddr p0 = some d ∧ s.inQ = v :: q :=
  ⟨rel 4, { demo [5] with inQ := [7] }, 0, 4, 7, [], by decide⟩
theorem witness_OutPushesThenSuspendsLate :
    ∃ (p0 : Param) (s : State) (v : Int), s.value p0 = .ok v := ⟨pos 0, demo [5], 5, by decide⟩
theorem witness_RbAddsToRelativeBase :
    ∃ (p0 : Param) (s : State) (v : Int), s.value p0 = .ok v ∧ 0 ≤ s.rb + v ∧
      s.cfg.wordBits.inRange (s.rb + v) = true := ⟨imm (-5), { demo [5] with rb := 5 }, -5, by decide⟩
/-- Each of the four operations. -/
theorem witness_AluWithPositionDestinationWritesOneCell :
    ∃ (p0 p1 : Param) (d : Int) (s : State) (a b c : Int), Memory.wf s.mem ∧ s.value p0 = .ok a ∧ s.value p1 = .ok b ∧
      s.memRead d = .ok c ∧ s.cfg.wordBits.inRange (a + b) = true ∧ s.cfg.wordBits.inRange (a * b) = true :=
  ⟨pos 0, imm (-2), 0, demo [5], 5, -2, 5, by decide⟩
theorem witness_OperandFaultIsTaken :
    ∃ (i : Instr) (s : State) (t : Trap), s.resolve i.params = .error t :=
  ⟨.out (pos 16), demo [], { cause := .memoryFault, info := 16 }, by decide⟩
theorem witness_AllImmediateWriterFaults :
    ∃ (i j : Instr), (i.opcode.writes = true ∧ ∀ p ∈ i.params, p.mode = .immediate) ∧
      (j.opcode.writes = true ∧ ∀ p ∈ j.params, p.mode = .immediate) :=
  ⟨.add (imm 5) (imm 7) (imm 9), .inp (imm 0), by decide⟩
/-- One above the largest Word by ADD, by MUL and by RB. -/
theorem witness_OverflowFaultsAndNeverWraps :
    ∃ (p0 p1 p1' p2 : Param) (s : State) (a b b' c d : Int), s.value p0 = .ok a ∧ s.value p1 = .ok b ∧
      s.value p1' = .ok b' ∧ s.value p2 = .ok c ∧ s.destOf [p0, p1, p2] = some d ∧
      s.cfg.wordBits.inRange (a + b) = false ∧ s.cfg.wordBits.inRange (a * b') = false ∧
      0 ≤ s.rb + a ∧ s.cfg.wordBits.inRange (s.rb + a) = false :=
  ⟨imm 9223372036854775807, imm 1, imm 2, pos 3, { demo [] with rb := 1 }, 9223372036854775807, 1, 2, 0, 3, by decide⟩
theorem witness_InOnEmptyQueueFaults :
    ∃ (p0 : Param) (s : State) (c d : Int), s.value p0 = .ok c ∧ s.effAddr p0 = some d ∧ s.inQ = [] :=
  ⟨pos 3, demo [5], 0, 3, by decide⟩
theorem witness_RbToNegativeBaseFaults :
    ∃ (p0 : Param) (s : State) (v : Int), s.value p0 = .ok v ∧ s.rb + v < 0 := ⟨imm (-1), demo [], -1, by decide⟩
/-- A next state, and an address that is not the destination. -/
theorem witness_AluFrame :
    ∃ (p0 p1 p2 : Param) (s t : State), exec (.add p0 p1 p2) s = .next t ∧ s.resolve [p0, p1, p2] = .ok { val := [5, 1, 0], dest := some 3 } :=
  ⟨pos 0, imm 1, pos 3, demo [5], _, rfl, by decide⟩
theorem witness_InFrame :
    ∃ (p0 : Param) (s t : State), exec (.inp p0) s = .next t ∧ t.inQ = s.inQ.tail ∧ t.status = .running :=
  ⟨pos 3, { demo [5] with inQ := [1, 2] }, _, rfl, by decide⟩
theorem witness_NonStoringFrame :
    (∃ t, exec (.jnz (imm 1) (imm 2)) (demo []) = .next t) ∧ (∃ t, exec (.out (imm 1)) (demo []) = .next t) ∧
    (∃ t, exec (.rb (imm 1)) (demo []) = .next t) ∧ (∃ t, exec .halt (demo []) = .next t) :=
  ⟨⟨_, rfl⟩, ⟨_, rfl⟩, ⟨_, rfl⟩, ⟨_, rfl⟩⟩
/-- The three cases: operands that do not resolve, a gated instruction, and one that runs (HALT in the last cell). -/
theorem witness_StepRunsDecodedInstruction :
    decodeWords ((demo [4, 16]).wordsAt 0 4) = .ok (.out (pos 16), [0, 0]) ∧
    (demo [4, 16]).resolve [pos 16] = .error { cause := .memoryFault, info := 16 } ∧
    decodeWords (({ demo [109, 1] with breakPolicy := 256#10 } : State).wordsAt 0 4) = .ok (.rb (imm 1), [0, 0]) ∧
    (256#10).getLsbD (policyBit .rb) = true ∧
    decodeWords (({ demo [0, 0, 0, 0, 0, 0, 0, 0, 0, 0, 0, 0, 0, 0, 0, 99] with pc := 15 } : State).wordsAt 15 4) =
      .ok (.halt, []) := by decide
/-- At -1 and at CAPACITY. -/
theorem witness_FetchOutsideMemoryFaults :
    ∃ (s t : State), s.status = .running ∧ s.pc < 0 ∧ t.status = .running ∧ (t.cfg.capacity : Int) ≤ t.pc :=
  ⟨{ demo [] with pc := -1 }, { demo [] with pc := 16 }, by decide⟩
/-- Parameter 0 with operand word 1 missing (capacity 2), and parameter 1 with operand word 2 missing (capacity 3). -/
theorem witness_FirstOperandFaultWins :
    (∃ (s : State) (w raw : Int) (h : Head) (t : Trap), s.status = .running ∧ s.memRead s.pc = .ok w ∧
      decodeOpword w = .ok h ∧ 0 < h.op.arity ∧ s.memRead (s.pc + 1 + (0 : Nat)) = .ok raw ∧
      s.value { mode := h.mode 0, raw := raw } = .error t) ∧
    (∃ (s : State) (w r v raw : Int) (h : Head) (t : Trap), s.status = .running ∧ s.memRead s.pc = .ok w ∧
      decodeOpword w = .ok h ∧ 1 < h.op.arity ∧ s.memRead (s.pc + 1 + (0 : Nat)) = .ok r ∧
      s.value { mode := h.mode 0, raw := r } = .ok v ∧ s.memRead (s.pc + 1 + (1 : Nat)) = .ok raw ∧
      s.value { mode := h.mode 1, raw := raw } = .error t ∧ (s.cfg.capacity : Int) ≤ s.pc + 1 + (2 : Nat)) :=
  ⟨⟨{ demo [1, 100] with cfg := { wordBits := .bounded 64, capacity := 2 } }, 1, 100,
      { op := .add, m0 := .position, m1 := .position, m2 := .position }, { cause := .memoryFault, info := 100 }, by decide⟩,
   ⟨{ demo [101, 7, 3] with cfg := { wordBits := .bounded 64, capacity := 3 } }, 101, 7, 7, 3,
      { op := .add, m0 := .immediate, m1 := .position, m2 := .position }, { cause := .memoryFault, info := 3 }, by decide⟩⟩
/-- A9: the third operand word of ADD is missing. -/
theorem witness_MissingOperandWordFaults :
    ∃ (s : State) (w : Int) (h : Head) (k : Nat), s.status = .running ∧ s.memRead s.pc = .ok w ∧
      decodeOpword w = .ok h ∧ k < h.op.arity ∧ (s.cfg.capacity : Int) ≤ s.pc + 1 + k ∧
      ∀ j < k, ∃ raw v, s.memRead (s.pc + 1 + j) = .ok raw ∧ s.value { mode := h.mode j, raw := raw } = .ok v := by
  refine ⟨{ demo [1, 0, 0] with cfg := { wordBits := .bounded 64, capacity := 3 } }, 1,
    { op := .add, m0 := .position, m1 := .position, m2 := .position }, 2, by decide, by decide, by decide, by decide,
    by decide, fun j hj => ⟨0, 1, ?_⟩⟩
  have : j = 0 ∨ j = 1 := by omega
  rcases this with rfl | rfl <;> decide
theorem witness_OutAlwaysYieldsLateNeverEarly :
    ∃ (s : State) (p0 : Param) (v : Int), s.status = .running ∧ s.fetchInstr = .ok (.out p0) ∧ s.value p0 = .ok v ∧
      s.breakPolicy = 1023#10 := ⟨{ demo [104, 5] with breakPolicy := 1023#10 }, imm 5, 5, by decide⟩
theorem witness_GatedInstructionRunsOnce :
    ∃ (s : State) (i : Instr) (c : RunCall) (cs : List RunCall), s.status = .running ∧ s.yieldMarker = .none ∧
      s.resumeGrant = false ∧ s.fetchInstr = .ok i ∧ i.opcode ≠ .out ∧
      s.breakPolicy.getLsbD (policyBit i.opcode) = true ∧ s.calls = c :: cs ∧ c.wordsOnly s.cfg.wordBits = true :=
  ⟨{ demo [3, 3, 99, 0] with breakPolicy := 4#10, calls := [{ inQ := .same [7], outQ := .other [] }] }, .inp (pos 3),
    { inQ := .same [7], outQ := .other [] }, [], by decide⟩
/-- A Suspended LATE state, and a fetched OUT, each with a call. -/
theorem witness_LateResumeRunsOnAtSamePc :
    (∃ (s : State) (c : RunCall), s.status = .suspended ∧ s.yieldMarker = .late ∧ c.wordsOnly s.cfg.wordBits = true) ∧
    (∃ (s : State) (p0 : Param) (v : Int) (c : RunCall), s.status = .running ∧ s.fetchInstr = .ok (.out p0) ∧
      s.value p0 = .ok v ∧ c.wordsOnly s.cfg.wordBits = true) :=
  ⟨⟨{ demo [] with status := .suspended, yieldMarker := .late }, { inQ := .same [], outQ := .same [] }, by decide⟩,
   ⟨demo [104, 5], imm 5, 5, { inQ := .other [1], outQ := .same [] }, by decide⟩⟩
theorem witness_PcAdvancesByLength :
    ∃ (s t : State) (i : Instr), exec i s = .next t ∧ (∀ tr, t ≠ s.takeFault tr) ∧ i.opcode ≠ .jnz ∧ i.opcode ≠ .jz ∧
      i.opcode ≠ .halt := by
  refine ⟨demo [], _, .rb (imm 1), rfl, fun tr h => ?_, by decide⟩
  have : Status.running = Status.faulted := congrArg State.status h
  cases this
/-- JNZ to CAPACITY and JZ to -1. -/
theorem witness_BranchOutsideFaultsAtNextFetch :
    (∃ (s : State) (p0 p1 : Param) (c a : Int), s.status = .running ∧ s.value p0 = .ok c ∧ s.value p1 = .ok a ∧ c ≠ 0 ∧
      (s.cfg.capacity : Int) ≤ a) ∧
    (∃ (s : State) (p0 p1 : Param) (c a : Int), s.status = .running ∧ s.value p0 = .ok c ∧ s.value p1 = .ok a ∧ c = 0 ∧
      a < 0) :=
  ⟨⟨demo [], imm 1, imm 16, 1, 16, by decide⟩, ⟨demo [], imm 0, imm (-1), 0, -1, by decide⟩⟩
/-- Each transition happens: to Suspended early and late, to Halted, to Faulted, and back to Running. -/
theorem witness_StatusTransitions :
    after (step { demo [99] with breakPolicy := 512#10 }) State.yieldMarker = some .early ∧
    after (step (demo [104, 5])) State.yieldMarker = some .late ∧
    after (step (demo [99])) State.status = some .halted ∧
    after (step (demo [98])) State.status = some .faulted ∧
    after (step { demo [99] with status := .suspended, yieldMarker := .late, calls := [{ inQ := .same [], outQ := .same [] }] })
      State.status = some .running := by decide
theorem witness_ParametersNeverChange : ∃ s t : State, step s = .next t ∧ s.breakPolicy = 1#10 :=
  ⟨{ demo [99] with breakPolicy := 1#10 }, _, rfl, rfl⟩
/-- Each of the four kinds of state is written by some step. -/
theorem witness_EachStateWrittenOnlyByItsInstructions :
    after (step { demo [3, 3] with inQ := [7] }) (fun t => (t.inQ, t.mem.read 3)) = some ([], 7) ∧
    after (step (demo [104, 5])) State.outQ = some [5] ∧ after (step (demo [109, 1])) State.rb = some 1 := by decide
theorem witness_FaultsArePrecise : ∃ s t : State, s.status = .running ∧ step s = .next t ∧ t.status = .faulted :=
  ⟨demo [109, -1], _, rfl, rfl, rfl⟩
theorem witness_TerminalStatusIsPermanent : ∃ s t : State, s.status = .halted ∧ t.status = .faulted :=
  ⟨{ demo [99] with status := .halted }, { demo [98] with status := .faulted }, rfl, rfl⟩
theorem witness_RunningStateAlwaysSteps : ∃ s : State, s.status = .running := ⟨demo [], rfl⟩
theorem demo_inv : (demo [104, 5, 99]).Inv :=
  ⟨by decide, by decide, by decide, by decide, by decide, by decide, by decide, by decide, by decide,
    fun v hv => (by cases hv), fun v hv => (by cases hv)⟩
/-- A Suspended state of the invariant whose host hands over a value that is no Word: the refusal happens. -/
theorem witness_StepRefusesOnlyBadChannelValues :
    ∃ s : State, s.Inv ∧ step s = .refused .channelValueNotWord :=
  ⟨{ demo [99] with status := .suspended, yieldMarker := .late, calls := [{ inQ := .same [9223372036854775808], outQ := .same [] }] },
    ⟨by decide, by decide, by decide, by decide, by decide, by decide, by decide, by decide, by decide,
      fun v hv => (by cases hv), fun v hv => (by cases hv)⟩, rfl⟩
theorem witness_FetchedInstructionIsWellFormed :
    ∃ (s : State) (i : Instr), s.Inv ∧ s.fetchInstr = .ok i := ⟨demo [104, 5, 99], .out (imm 5), demo_inv, by decide⟩
theorem witness_EveryStepKeepsInvariant : ∃ s t : State, s.Inv ∧ step s = .next t := ⟨demo [104, 5, 99], _, demo_inv, rfl⟩
theorem witness_ConstructedInstanceMeetsInvariant :
    ∃ s, State.construct { wordBits := .bounded 64, capacity := 4 } [3, 0, -1] [] 1#10 = .ok s := ⟨_, rfl⟩
/-- A run that ends in each of the four ways. -/
theorem witness_RunPushesAtMostOneValue :
    (runFor 1 { inQ := .same [], outQ := .same [] } (demo [104, 5])).map (fun r => (r.1, r.2.outQ)) = some (.suspended, [5]) ∧
    (runFor 1 { inQ := .same [], outQ := .same [] } { demo [99] with breakPolicy := 512#10 }).map (fun r => (r.1, r.2.outQ)) =
      some (.suspended, []) ∧
    (runFor 1 { inQ := .same [], outQ := .same [] } (demo [99])).map (fun r => r.1) = some .halted ∧
    (runFor 1 { inQ := .same [], outQ := .same [] } (demo [98])).map (fun r => r.1) = some .faulted := by decide
theorem witness_RunResultIsUnique :
    ∃ (s t : State) (st : Status), RunReturns { inQ := .same [], outQ := .same [] } s st t := ⟨demo [99], _, _, 1, rfl⟩
/-- Without the grant: the early yield, a fault and a fetched OUT.  With it: RB runs, and then an OUT. -/
theorem witness_FullPolicySingleSteps :
    (∀ op : Opcode, op ≠ .out → ({ demo [109, 1] with breakPolicy := 1015#10 } : State).breakPolicy.getLsbD (policyBit op) = true) ∧
    after (step { demo [109, 1] with breakPolicy := 1015#10 }) State.yieldMarker = some .early ∧
    after (step { demo [98] with breakPolicy := 1015#10 }) State.status = some .faulted ∧
    after (step { demo [104, 5] with breakPolicy := 1015#10 }) State.yieldMarker = some .late ∧
    after (step { demo [109, 1, 104, 5] with breakPolicy := 1015#10, resumeGrant := true })
      (fun t => (t.status, after (step t) State.yieldMarker)) = some (.running, some .late) :=
  ⟨fun op h => by cases op <;> first | decide | exact absurd rfl h, by decide, by decide, by decide, by decide⟩
theorem witness_DiagnosticWindowAroundFault :
    ∃ (s : State) (r : FaultRecord), s.status = .faulted ∧ s.fault = some r ∧ s.diagWindow = some (0, 7) ∧
      s.diagCells = [98, 0, 0, 0, 0, 0, 0, 0] :=
  ⟨{ demo [98] with status := .faulted, fault := some { cause := .unknownOpcode, pc := 0, info := 98 } },
    { cause := .unknownOpcode, pc := 0, info := 98 }, by decide⟩
theorem witness_SystemRunTouchesOneInstance : ∃ y z : System, System.RunsTo y z :=
  ⟨{ instances := [demo [104, 5]], queues := [[], []] }, _,
    .run _ 0 0 1 (demo [104, 5]) _ _ rfl (by decide) (by decide) (.inl rfl) ⟨1, rfl⟩⟩
/-- On and one past each bound of 64 bits. -/
theorem witness_WordRangeHasItsBounds :
    (WordBits.bounded 64).inRange 9223372036854775807 = true ∧ (WordBits.bounded 64).inRange 9223372036854775808 = false ∧
    (WordBits.bounded 64).inRange (-9223372036854775808) = true ∧
    (WordBits.bounded 64).inRange (-9223372036854775809) = false ∧
    ∃ (p0 p1 p2 : Param) (s : State) (a b c d : Int), s.cfg.wordBits = .bounded 64 ∧ s.value p0 = .ok a ∧
      s.value p1 = .ok b ∧ s.value p2 = .ok c ∧ s.destOf [p0, p1, p2] = some d ∧ a + b = 9223372036854775808 :=
  ⟨by decide, by decide, by decide, by decide,
    ⟨imm 9223372036854775807, imm 1, pos 3, demo [], 9223372036854775807, 1, 0, 3, by decide⟩⟩
/-- The first bit, the last bit and bit 3. -/
theorem witness_BreakPolicyBitsGateTheirCategories :
    ({ demo [1101, 1, 2, 5] with breakPolicy := 1#10 } : State).fetchInstr = .ok (.add (imm 1) (imm 2) (pos 5)) ∧
    ({ demo [99] with breakPolicy := 512#10 } : State).fetchInstr = .ok .halt ∧
    ({ demo [104, 5] with breakPolicy := 8#10 } : State).fetchInstr = .ok (.out (imm 5)) := by decide

end Sys2Proof.Tests
end

section
/-! The family of spec/10_state.md: the memory a construction gives (R32), the transitions of status (R37), and that
the label is read by nothing (R42). -/

namespace Sys2Proof.Machine

/-! ### Constructed memory -/

/-- Cell n after a construction is PROGRAM[n], or 0 past the program (10_state.md R32). -/
theorem State.read_fresh (cfg : Config) (program : List Int) (id : List Char) (policy : BitVec 10) (n : Nat) :
    (State.fresh cfg program id policy).mem.read n = program.getD n 0 := by
  have hload : (Memory.load [] 0 program).read n =
      if 0 ≤ n ∧ n < 0 + program.length then program.getD (n - 0) 0 else Memory.read [] n :=
    Memory.read_load Memory.wf_reset 0 program n
  rw [State.fresh, hload]
  by_cases hn : n < program.length
  · rw [if_pos (by omega), Nat.sub_zero]
  · rw [if_neg (by omega), List.getD_eq_default _ _ (Nat.le_of_not_lt hn)]
    rfl

/-! ### Causes of a change of status -/

/-- An instruction changes status only as OUT (the late yield), as HALT, or by the fault it takes. -/
theorem Effect.status_cases {s t : State} {i : Instr} (h : Effect s i t) :
    t.status = s.status ∨
    (i.opcode = .out ∧ t.status = .suspended ∧ t.yieldMarker = .late) ∨
    (i = .halt ∧ t.status = .halted) ∨
    ∃ tr, t = s.takeFault tr := by
  cases h with
  | fault tr => exact .inr (.inr (.inr ⟨tr, rfl⟩))
  | pushed => exact .inr (.inl ⟨rfl, rfl, rfl⟩)
  | halted => exact .inr (.inr (.inl ⟨rfl, rfl⟩))
  | store | popped | jumped | passed | rebased => exact .inl rfl

/-- Waiting for the host changes status only by a RUN of a Suspended state, which takes that call off the list. -/
theorem State.awaitRun_status_changed {s t : State} (h : s.awaitRun = .next t) (hs : s.status ≠ .running)
    (hne : t.status ≠ s.status) :
    s.status = .suspended ∧ t.status = .running ∧ ∃ c cs, s.calls = c :: cs ∧ t.calls = cs := by
  rcases s.awaitRun_cases with ⟨-, e⟩ | ⟨c, cs, hcalls, e⟩
  · cases e.symm.trans h
    exact absurd rfl hne
  · rcases State.runEntry_next (e.symm.trans h) with
      ⟨-, rfl⟩ | ⟨-, ⟨hrun, -⟩ | ⟨hsusp, -, rfl⟩ | ⟨hsusp, -, rfl⟩⟩
    · exact absurd rfl hne
    · exact absurd hrun hs
    · exact ⟨hsusp, rfl, c, cs, hcalls, rfl⟩
    · exact ⟨hsusp, rfl, c, cs, hcalls, rfl⟩

/-! ### Relabelling -/

/-- The state with another label. -/
def State.relabel (x : List Char) (s : State) : State := { s with id := x }

/-- An outcome with another label in its next state. -/
def relabelNext (x : List Char) : Host.Outcome State Fault Refusal → Host.Outcome State Fault Refusal
  | .next t => .next (t.relabel x)
  | .fault f => .fault f
  | .refused r => .refused r

@[simp] theorem State.relabel_cfg (x : List Char) (s : State) : (s.relabel x).cfg = s.cfg := rfl
@[simp] theorem State.relabel_rb (x : List Char) (s : State) : (s.relabel x).rb = s.rb := rfl
@[simp] theorem State.relabel_status (x : List Char) (s : State) : (s.relabel x).status = s.status := rfl
@[simp] theorem State.relabel_yieldMarker (x : List Char) (s : State) : (s.relabel x).yieldMarker = s.yieldMarker := rfl
@[simp] theorem State.relabel_inQ (x : List Char) (s : State) : (s.relabel x).inQ = s.inQ := rfl
@[simp] theorem State.relabel_calls (x : List Char) (s : State) : (s.relabel x).calls = s.calls := rfl

@[simp] theorem State.mapped_relabel (x : List Char) (s : State) : (s.relabel x).mapped = s.mapped := rfl
@[simp] theorem State.checked_relabel (x : List Char) (s : State) : (s.relabel x).checked = s.checked := rfl
@[simp] theorem State.setInQ_relabel (x : List Char) (s : State) (q : List Int) :
    (s.relabel x).setInQ q = (s.setInQ q).relabel x := rfl

@[simp] theorem State.resolve_relabel (x : List Char) (s : State) : (s.relabel x).resolve = s.resolve :=
  State.resolve_congr rfl rfl rfl

@[simp] theorem State.fetchInstr_relabel (x : List Char) (s : State) : (s.relabel x).fetchInstr = s.fetchInstr :=
  State.fetchInstr_congr rfl rfl rfl rfl

theorem State.memWrite_relabel (x : List Char) (s : State) (a v : Int) :
    (s.relabel x).memWrite a v = (s.memWrite a v).map (State.relabel x) := by
  unfold State.memWrite
  rw [State.mapped_relabel]
  cases s.mapped a <;> rfl

/-- A handler that does not read the label: relabelling before it is relabelling after it. -/
def IgnoresLabel (handler : Latches → State → Except Trap State) : Prop :=
  ∀ (x : List Char) (l : Latches) (s : State), handler l (s.relabel x) = (handler l s).map (State.relabel x)

theorem ignoresLabel_aluHandler {result : State → Int → Int → Except Trap Int}
    (hr : ∀ x s, result (State.relabel x s) = result s) : IgnoresLabel (aluHandler result) := by
  intro x l s
  unfold aluHandler
  cases l.destination with
  | error t => rfl
  | ok d =>
    rw [hr]
    cases result s (l.v 0) (l.v 1) with
    | error t => rfl
    | ok r =>
      simp only [State.memWrite_relabel]
      cases s.memWrite d r <;> rfl

theorem ignoresLabel_inHandler : IgnoresLabel inHandler := by
  intro x l s
  unfold inHandler
  cases l.destination with
  | error t => rfl
  | ok d =>
    rw [State.relabel_inQ]
    cases s.inQ with
    | nil => rfl
    | cons v q =>
      simp only [State.setInQ_relabel, State.memWrite_relabel]
      cases (s.setInQ q).memWrite d v <;> rfl

theorem ignoresLabel_outHandler : IgnoresLabel outHandler := fun _ _ _ => rfl

theorem ignoresLabel_branchHandler (taken : Int → Bool) : IgnoresLabel (branchHandler taken) := by
  intro x l s
  unfold branchHandler
  cases taken (l.v 0) <;> rfl

theorem ignoresLabel_rbHandler : IgnoresLabel rbHandler := by
  intro x l s
  unfold rbHandler
  rw [State.relabel_rb, State.checked_relabel]
  by_cases hneg : s.rb + l.v 0 < 0
  · rw [if_pos hneg, if_pos hneg]; rfl
  · rw [if_neg hneg, if_neg hneg]
    cases s.checked (s.rb + l.v 0) <;> rfl

theorem ignoresLabel_haltHandler : IgnoresLabel haltHandler := fun _ _ _ => rfl

/-- An instruction whose handler does not read the label does not either. -/
theorem State.runHandler_relabel {handler : Latches → State → Except Trap State} (hh : IgnoresLabel handler)
    (ps : List Param) (x : List Char) (s : State) :
    (s.relabel x).runHandler ps handler = relabelNext x (s.runHandler ps handler) := by
  cases hr : s.resolve ps with
  | error t =>
    have hr' : (s.relabel x).resolve ps = .error t := by rw [State.resolve_relabel, hr]
    rw [State.runHandler_of_error hr, State.runHandler_of_error hr']
    rfl
  | ok l =>
    have hr' : (s.relabel x).resolve ps = .ok l := by rw [State.resolve_relabel, hr]
    rw [State.runHandler_of_resolve hr, State.runHandler_of_resolve hr', hh x l s]
    cases handler l s <;> rfl

theorem exec_relabel (i : Instr) (x : List Char) (s : State) :
    exec i (s.relabel x) = relabelNext x (exec i s) := by
  cases i with
  | add | mul | lt | eq =>
    exact State.runHandler_relabel (ignoresLabel_aluHandler fun _ _ => rfl) _ x s
  | inp => exact State.runHandler_relabel ignoresLabel_inHandler _ x s
  | out => exact State.runHandler_relabel ignoresLabel_outHandler _ x s
  | jnz | jz => exact State.runHandler_relabel (ignoresLabel_branchHandler _) _ x s
  | rb => exact State.runHandler_relabel ignoresLabel_rbHandler _ x s
  | halt => exact State.runHandler_relabel ignoresLabel_haltHandler [] x s

theorem engineStep_relabel (x : List Char) (s : State) :
    engineStep (s.relabel x) = relabelNext x (engineStep s) := by
  unfold engineStep
  rw [State.fetchInstr_relabel]
  cases s.fetchInstr with
  | error t => rfl
  | ok i =>
    by_cases hy : s.yieldsBefore i.opcode = true
    · have hy' : (s.relabel x).yieldsBefore i.opcode = true := hy
      simp only [if_pos hy, if_pos hy']
      rfl
    · have hy' : ¬ (s.relabel x).yieldsBefore i.opcode = true := hy
      simp only [if_neg hy, if_neg hy']
      exact exec_relabel i x s.clearGrant

theorem State.runEntry_relabel (c : RunCall) (x : List Char) (s : State) :
    (s.relabel x).runEntry c = relabelNext x (s.runEntry c) := by
  unfold State.runEntry
  rw [State.relabel_status, State.relabel_yieldMarker, State.relabel_cfg]
  cases s.status with
  | running => cases c.wordsOnly s.cfg.wordBits <;> rfl
  | suspended =>
    cases s.yieldMarker with
    | none => rfl
    | early | late => cases c.wordsOnly s.cfg.wordBits <;> rfl
  | halted | faulted => rfl

theorem State.awaitRun_relabel (x : List Char) (s : State) :
    (s.relabel x).awaitRun = relabelNext x s.awaitRun := by
  unfold State.awaitRun
  rw [State.relabel_calls]
  cases s.calls with
  | nil => rfl
  | cons c cs => exact State.runEntry_relabel c x (s.setCalls cs)

/-- Relabelling commutes with the step (10_state.md R42). -/
theorem step_relabel (x : List Char) (s : State) : step (s.relabel x) = relabelNext x (step s) := by
  by_cases hr : s.status = .running
  · have hr' : (s.relabel x).status = .running := hr
    rw [step_running hr, step_running hr', engineStep_relabel]
  · have hr' : (s.relabel x).status ≠ .running := hr
    rw [step_not_running hr, step_not_running hr', State.awaitRun_relabel]

/-! ### The obligations -/

/-- Settles O9: a successful construction gives the fresh state, whose cells `State.read_fresh` reads. -/
theorem constructedMemoryHoldsProgramThenZeros : Obligations.ConstructedMemoryHoldsProgramThenZeros := by
  intro cfg program id policy s h a
  obtain ⟨-, -, -, rfl⟩ := State.construct_ok_iff.1 h
  have hmapped : (State.fresh cfg program id policy).mapped a = true ↔ 0 ≤ a ∧ a < (cfg.capacity : Int) :=
    State.mapped_iff _ a
  split_ifs with ha
  · rw [State.memRead_of_mapped (hmapped.2 ha), State.read_fresh]
  · exact State.memRead_of_unmapped (Bool.eq_false_iff.2 fun hm => ha (hmapped.1 hm))

/-- Settles O42, by the cases of the engine's step and, when it is not Running, of the host's next RUN. -/
theorem statusTransitions : Obligations.StatusTransitions := by
  intro s t h hne
  by_cases hs : s.status = .running
  · rw [step_running hs] at h
    rcases engineStep_cases s with ⟨tr, -, e⟩ | ⟨i, hi, hy, e⟩ | ⟨i, hi, -, e⟩
    · cases e.symm.trans h
      exact .inr (.inr (.inl ⟨hs, rfl, _, rfl, rfl⟩))
    · cases e.symm.trans h
      obtain ⟨hout, hbit, hgrant⟩ := (s.yieldsBefore_iff i.opcode).1 hy
      exact .inl ⟨hs, rfl, i, hi, .inl ⟨rfl, hout, hbit, hgrant⟩⟩
    · rcases (exec_effect (e.symm.trans h)).status_cases with
        hsame | ⟨hout, hsusp, hlate⟩ | ⟨rfl, hhalt⟩ | ⟨tr, rfl⟩
      · exact absurd hsame hne
      · exact .inl ⟨hs, hsusp, i, hi, .inr ⟨hlate, hout⟩⟩
      · exact .inr (.inl ⟨hs, hhalt, hi⟩)
      · exact .inr (.inr (.inl ⟨hs, rfl, _, rfl, rfl⟩))
  · rw [step_not_running hs] at h
    exact .inr (.inr (.inr (State.awaitRun_status_changed h hs hne)))

/-- Settles O44: relabelling commutes with the step, part by part. -/
theorem labelHasNoEffect : Obligations.LabelHasNoEffect := by
  intro s x
  have h : step { s with id := x } = relabelNext x (step s) := step_relabel x s
  rw [h]
  cases step s <;> rfl

end Sys2Proof.Machine
end

section
/-! The family of spec/20_memory.md: what a construction fixes stays fixed (R63). -/

namespace Sys2Proof.Machine

/-! ### The parameters of an instance -/

/-- What a construction fixes for good: WORD_BITS and CAPACITY, the break policy and the label (20_memory.md R63;
10_state.md R40, R42). -/
def State.parameters (s : State) : Config × BitVec 10 × List Char := (s.cfg, s.breakPolicy, s.id)

theorem State.parameters_eq_iff {s t : State} :
    t.parameters = s.parameters ↔ t.cfg = s.cfg ∧ t.breakPolicy = s.breakPolicy ∧ t.id = s.id := by
  simp [State.parameters]

theorem Effect.parameters_eq {s t : State} {i : Instr} (h : Effect s i t) : t.parameters = s.parameters := by
  cases h with
  | fault | store | popped | pushed | jumped | passed | rebased | halted => rfl

theorem engineStep_parameters {s t : State} (h : engineStep s = .next t) : t.parameters = s.parameters := by
  rcases engineStep_cases s with ⟨tr, -, e⟩ | ⟨i, -, -, e⟩ | ⟨i, -, -, e⟩
  · cases e.symm.trans h
    rfl
  · cases e.symm.trans h
    rfl
  · exact (exec_effect (e.symm.trans h)).parameters_eq

theorem State.runEntry_parameters {c : RunCall} {s t : State} (h : s.runEntry c = .next t) :
    t.parameters = s.parameters := by
  rcases State.runEntry_next h with ⟨-, rfl⟩ | ⟨-, ⟨-, rfl⟩ | ⟨-, -, rfl⟩ | ⟨-, -, rfl⟩⟩ <;> rfl

theorem State.awaitRun_parameters {s t : State} (h : s.awaitRun = .next t) : t.parameters = s.parameters := by
  rcases s.awaitRun_cases with ⟨-, e⟩ | ⟨c, cs, -, e⟩
  · cases e.symm.trans h
    rfl
  · exact State.runEntry_parameters (s := s.setCalls cs) (e.symm.trans h)

/-- No step changes a parameter, whether the engine takes it or it is the entry of a RUN. -/
theorem step_parameters {s t : State} (h : step s = .next t) : t.parameters = s.parameters := by
  by_cases hs : s.status = .running
  · exact engineStep_parameters ((step_running hs).symm.trans h)
  · exact State.awaitRun_parameters ((step_not_running hs).symm.trans h)

/-! ### The obligation -/

/-- Settles O43, by the cases of the engine's step and of the host's next RUN: no update on either path writes a
parameter. -/
theorem parametersNeverChange : Obligations.ParametersNeverChange :=
  fun _ _ h => State.parameters_eq_iff.1 (step_parameters h)

end Sys2Proof.Machine
end

section
/-! The family of spec/41_execution_cycle.md: the late yield of an OUT and the return from it (R142, R151). -/

namespace Sys2Proof.Machine

/-! ### The step at a fetched OUT -/

/-- No policy holds OUT back before it executes (41_execution_cycle.md R147). -/
@[simp] theorem State.yieldsBefore_out (s : State) : s.yieldsBefore .out = false := rfl

/-- An instruction fetched and not held back runs with the grant cleared (41_execution_cycle.md R148). -/
theorem engineStep_of_fetch {s : State} {i : Instr} (hf : s.fetchInstr = .ok i)
    (hy : s.yieldsBefore i.opcode = false) : engineStep s = exec i s.clearGrant := by
  simp [engineStep, hf, hy]

/-- OUT of a readable value pushes it, passes the instruction and yields late (44_io.md R201). -/
theorem exec_out_of_value {s : State} {p0 : Param} {v : Int} (hv : s.value p0 = .ok v) :
    exec (.out p0) s = .next ((s.pushOut v).advance 2).yieldLate :=
  State.runHandler_of_resolve (State.resolve_one.2 ⟨v, hv, rfl⟩)

/-- The step of a Running state at an OUT of a readable value. -/
theorem step_of_fetched_out {s : State} {p0 : Param} {v : Int} (hs : s.status = .running)
    (hf : s.fetchInstr = .ok (.out p0)) (hv : s.value p0 = .ok v) :
    step s = .next ((s.clearGrant.pushOut v).advance 2).yieldLate := by
  have hv' : s.clearGrant.value p0 = .ok v := hv
  rw [step_running hs, engineStep_of_fetch hf s.yieldsBefore_out, exec_out_of_value hv']

/-! ### The return from a late yield -/

/-- A RUN that brings Words resumes a late yield (41_execution_cycle.md R142). -/
theorem State.runEntry_late {s : State} {c : RunCall} (hs : s.status = .suspended) (hm : s.yieldMarker = .late)
    (hw : c.wordsOnly s.cfg.wordBits = true) : s.runEntry c = .next (s.attachQueues c).resumeLate := by
  simp [State.runEntry, hs, hm, hw]

/-! ### The obligation -/

/-- Settles O39: the entry action is `State.resumeLate` on the RUN's queues, and after a fetched OUT it finds pc already
past the instruction and the value already pushed. -/
theorem lateResumeRunsOnAtSamePc : Obligations.LateResumeRunsOnAtSamePc := by
  refine ⟨fun s c hs hm hw => State.runEntry_late hs hm hw, fun s p0 v c hs hf hv hw => ?_⟩
  have hentry := State.runEntry_late (s := ((s.clearGrant.pushOut v).advance 2).yieldLate) (c := c) rfl rfl hw
  exact ⟨_, _, step_of_fetched_out hs hf hv, rfl, rfl, rfl, hentry, rfl⟩

end Sys2Proof.Machine
end

section
/-! The family of spec/42_alu.md: ADD, MUL, LT and EQ write their destination cell and no other (R177). -/

namespace Sys2Proof.Machine

/-! ### ALU instructions -/

/-- An instruction with three readable parameters, a destination and a result: the one write, then `pc <- pc + 4`
(42_alu.md R170 to R173). -/
theorem State.runHandler_alu_of {result : State → Int → Int → Except Trap Int} {p0 p1 p2 : Param} {s : State}
    {a b c d r : Int} (h0 : s.value p0 = .ok a) (h1 : s.value p1 = .ok b) (h2 : s.value p2 = .ok c)
    (hd : s.destOf [p0, p1, p2] = some d) (hr : result s a b = .ok r) :
    s.runHandler [p0, p1, p2] (aluHandler result) = .next ((s.setCell d r).advance 4) := by
  have hres : s.resolve [p0, p1, p2] = .ok { val := [a, b, c], dest := s.destOf [p0, p1, p2] } :=
    State.resolve_three.2 ⟨a, b, c, h0, h1, h2, rfl⟩
  rw [State.runHandler_of_resolve hres, aluHandler_of hd (State.mapped_dest hres hd) hr]

/-! ### A POSITION destination -/

/-- A final POSITION parameter is the destination, whatever the earlier ones are (40_operand_addressing.md R122,
R125). -/
theorem State.destOf_position_last (s : State) (p0 p1 : Param) (d : Int) :
    s.destOf [p0, p1, { mode := .position, raw := d }] = some d := rfl

/-- The resolution read of a POSITION parameter is a read of the cell it names (40_operand_addressing.md R122). -/
theorem State.value_position (s : State) (d : Int) :
    s.value { mode := .position, raw := d } = s.memRead d := rfl

/-- The one write and the advance put the destination cell and leave every other address reading as before
(42_alu.md R177). -/
theorem State.memRead_setCell_advance {s : State} {d : Int} (hw : Memory.wf s.mem) (hm : s.mapped d = true)
    (r : Int) (n : Nat) :
    ((s.setCell d r).advance n).memRead d = .ok r ∧
      ∀ e, e ≠ d → ((s.setCell d r).advance n).memRead e = s.memRead e := by
  have hadv : ((s.setCell d r).advance n).memRead = (s.setCell d r).memRead := State.memRead_congr rfl rfl
  have hd0 : 0 ≤ d := ((s.mapped_iff d).1 hm).1
  rw [hadv]
  exact ⟨s.memRead_setCell_same d r hw hm, fun e he => s.memRead_setCell_other d e r hd0 he⟩

/-! ### The obligation -/

/-- Settles O24: each of the four is the shared ALU handler with its own result, and a POSITION destination is the cell
that the handler's one write puts. -/
theorem aluWithPositionDestinationWritesOneCell : Obligations.AluWithPositionDestinationWritesOneCell := by
  intro p0 p1 d s a b c i r hwf h0 h1 hd hi
  have hrun {result : State → Int → Int → Except Trap Int} (hr : result s a b = .ok r) :
      s.runHandler [p0, p1, { mode := .position, raw := d }] (aluHandler result) =
        .next ((s.setCell d r).advance 4) :=
    State.runHandler_alu_of h0 h1 ((s.value_position d).trans hd) (s.destOf_position_last p0 p1 d) hr
  refine ⟨(s.setCell d r).advance 4, ?_, State.memRead_setCell_advance hwf (State.memRead_ok_iff.1 hd).1 r 4⟩
  rcases hi with ⟨rfl, rfl, hr⟩ | ⟨rfl, rfl, hr⟩ | ⟨rfl, rfl⟩ | ⟨rfl, rfl⟩
  · exact hrun (State.checked_of_inRange hr)
  · exact hrun (State.checked_of_inRange hr)
  · exact hrun (congrArg Except.ok (ltWord_eq a b))
  · exact hrun (congrArg Except.ok (eqWord_eq a b))

end Sys2Proof.Machine
end

section
/-! The family of spec/30_encoding.md: the decoder undoes the encoder (R90, R91), and the digits an opcode word is read
by (R91, R92). -/

namespace Sys2Proof

/-! ### The encoder -/

theorem Instr.encode_length (i : Instr) : (encode i).length = i.length := by cases i <;> rfl

theorem Instr.opword_decodes (i : Instr) : Laws.OpwordDecodes.Statement i := by
  cases i with
  | add p0 p1 p2 => exact Laws.OpwordDecodes.add p0 p1 p2
  | mul p0 p1 p2 => exact Laws.OpwordDecodes.mul p0 p1 p2
  | inp p0 => exact Laws.OpwordDecodes.inp p0
  | out p0 => exact Laws.OpwordDecodes.out p0
  | jnz p0 p1 => exact Laws.OpwordDecodes.jnz p0 p1
  | jz p0 p1 => exact Laws.OpwordDecodes.jz p0 p1
  | lt p0 p1 p2 => exact Laws.OpwordDecodes.lt p0 p1 p2
  | eq p0 p1 p2 => exact Laws.OpwordDecodes.eq p0 p1 p2
  | rb p0 => exact Laws.OpwordDecodes.rb p0
  | halt => exact Laws.OpwordDecodes.halt

/-- Assembly succeeds when every parameter is supplied: the converse of `Head.build_ok`. -/
theorem Head.build_of_params {ε : Type} {h : Head} {param : Nat → Mode → Except ε Param} {i : Instr}
    (hop : h.op = i.opcode) (hp : ∀ k p, i.params[k]? = some p → param k (h.mode k) = .ok p) :
    h.build param = .ok i := by
  obtain ⟨op, m0, m1, m2⟩ := h
  subst hop
  cases i with
  | add p0 p1 p2 | mul p0 p1 p2 | lt p0 p1 p2 | eq p0 p1 p2 =>
    have h0 : param 0 m0 = .ok p0 := hp 0 p0 rfl
    have h1 : param 1 m1 = .ok p1 := hp 1 p1 rfl
    have h2 : param 2 m2 = .ok p2 := hp 2 p2 rfl
    simp [Head.build, Head.build3, Instr.opcode, h0, h1, h2]
  | jnz p0 p1 | jz p0 p1 =>
    have h0 : param 0 m0 = .ok p0 := hp 0 p0 rfl
    have h1 : param 1 m1 = .ok p1 := hp 1 p1 rfl
    simp [Head.build, Head.build2, Instr.opcode, h0, h1]
  | inp p0 | out p0 | rb p0 =>
    have h0 : param 0 m0 = .ok p0 := hp 0 p0 rfl
    simp [Head.build, Head.build1, Instr.opcode, h0]
  | halt => rfl

/-- Operand word k of an encoding is the raw operand of parameter k, whatever words follow. -/
theorem wordParam_encode {i : Instr} {k : Nat} {p : Param} (rest : List Int) (hk : i.params[k]? = some p) :
    wordParam (encode i ++ rest) k p.mode = .ok p := by
  have hword : (encode i ++ rest)[k + 1]? = some p.raw := by
    have hlt : k < (i.params.map Param.raw).length := by
      rw [List.length_map]
      exact (List.getElem?_eq_some_iff.1 hk).1
    rw [encode, List.cons_append, List.getElem?_cons_succ, List.getElem?_append_left hlt, List.getElem?_map, hk]
    rfl
  simp [wordParam, hword]

/-- Settles O1: the opcode word gives back opcode and modes, the words after it the raw operands, and what is dropped is
as long as the encoding. -/
theorem decodeOfEncodeIsIdentity : Obligations.DecodeOfEncodeIsIdentity := by
  intro i rest
  obtain ⟨h, hdec, hop, hmode⟩ := i.opword_decodes
  have hbuild : h.build (wordParam (encode i ++ rest)) = .ok i :=
    Head.build_of_params hop fun k p hk => by rw [hmode k p hk]; exact wordParam_encode rest hk
  have hdrop : (encode i ++ rest).drop h.op.length = rest := by
    rw [hop]
    exact List.drop_left' i.encode_length
  have hcons : encode i ++ rest = i.opword :: (i.params.map Param.raw ++ rest) := rfl
  rw [hcons] at hbuild hdrop ⊢
  simp only [decodeWords, hdec, hbuild, hdrop]

/-! ### The digits of an opcode word -/

/-- Settles O3: the condition of `decodeOpword_eq_ok_iff`, each mode field read as its digit. -/
theorem opcodeWordDecodesByItsDigits : Obligations.OpcodeWordDecodesByItsDigits := by
  intro w h
  rw [decodeOpword_eq_ok_iff, modeField_eq_ok_iff, modeField_eq_ok_iff, modeField_eq_ok_iff]

/-- Digit j depends on the digits up to j only. -/
theorem digit_eq_mod_div (j w : Nat) : digit j w = w % 10 ^ (j + 1) / 10 ^ j := by
  rw [digit, pow_succ, Nat.mod_mul_right_div_self]

theorem replaced_mod (m w k : Nat) : (w % 10 ^ m + 10 ^ m * k) % 10 ^ m = w % 10 ^ m := by
  rw [Nat.add_mul_mod_self_left, Nat.mod_mod]

/-- Replacing the digits from m on keeps every digit below m. -/
theorem digit_replaced {j m : Nat} (w k : Nat) (hj : j < m) : digit j (w % 10 ^ m + 10 ^ m * k) = digit j w := by
  have hdvd : 10 ^ (j + 1) ∣ 10 ^ m := pow_dvd_pow 10 hj
  rw [digit_eq_mod_div, digit_eq_mod_div, ← Nat.mod_mod_of_dvd _ hdvd, replaced_mod, Nat.mod_mod_of_dvd _ hdvd]

/-- Replacing the digits from place 2 or higher on keeps the opcode field. -/
theorem opcodeField_replaced {m : Nat} (w k : Nat) (hm : 2 ≤ m) : (w % 10 ^ m + 10 ^ m * k) % 100 = w % 100 := by
  have hdvd : 100 ∣ 10 ^ m := pow_dvd_pow 10 hm
  rw [← Nat.mod_mod_of_dvd _ hdvd, replaced_mod, Nat.mod_mod_of_dvd _ hdvd]

/-- Settles O4: the opcode field and the used mode digits, all that decoding reads, are kept. -/
theorem unusedDigitsIgnored : Obligations.UnusedDigitsIgnored := by
  intro w h k hdec
  obtain ⟨-, hop, h0, h1, h2⟩ := (decodeOpword_eq_ok_iff w h).1 hdec
  have hfield (i : Nat) : modeField h.op.arity i
      (w.toNat % 10 ^ (2 + h.op.arity) + 10 ^ (2 + h.op.arity) * k) = modeField h.op.arity i w.toNat :=
    modeField_congr fun hi => digit_replaced w.toNat k (by omega)
  refine (decodeOpword_eq_ok_iff _ h).2 ⟨Int.natCast_nonneg _, ?_⟩
  rw [Int.toNat_natCast, hfield, hfield, hfield, opcodeField_replaced _ _ (Nat.le_add_right 2 _)]
  exact ⟨hop, h0, h1, h2⟩

/-- Settles O2: the ten words of the spec's table are evaluated. -/
theorem specTableWordsDecode : Obligations.SpecTableWordsDecode := by
  unfold Obligations.SpecTableWordsDecode
  decide

end Sys2Proof
end

section
/-! The family of spec/20_memory.md and spec/40_operand_addressing.md: reads after writes (R73), and what operand
resolution leaves in the latches (R122 to R127). -/

namespace Sys2Proof.Machine

/-! ### Memory -/

/-- Settles O8: a write that succeeds puts one cell at a mapped address. -/
theorem readAfterWriteAndElsewhere : Obligations.ReadAfterWriteAndElsewhere := by
  intro s t a v hwf hwrite
  obtain ⟨hm, rfl⟩ := State.memWrite_ok_iff.1 hwrite
  have ha : 0 ≤ a := ((s.mapped_iff a).1 hm).1
  exact ⟨s.memRead_setCell_same a v hwf hm, fun b hb => s.memRead_setCell_other a b v ha hb⟩

/-! ### One parameter -/

theorem State.value_relative (s : State) (raw : Int) :
    s.value { mode := .relative, raw := raw } = s.memRead (raw + s.rb) := rfl

theorem State.effAddr_of_immediate (s : State) {p : Param} (hp : p.mode = .immediate) : s.effAddr p = none := by
  simp [State.effAddr, hp]

theorem State.value_of_immediate (s : State) {p : Param} (hp : p.mode = .immediate) : s.value p = .ok p.raw := by
  simp [State.value, s.effAddr_of_immediate hp]

/-- Settles O11: the loop's next parameter in each mode. -/
theorem parameterModesResolve : Obligations.ParameterModesResolve := by
  intro s l raw ps
  refine ⟨?_, rfl, ?_⟩
  · rw [State.resolveFrom, State.value_position]
    cases s.memRead raw <;> rfl
  · rw [State.resolveFrom, State.value_relative]
    cases s.memRead (raw + s.rb) <;> rfl

/-! ### All parameters -/

/-- Resolution appends each parameter's value, in order (40_operand_addressing.md R129). -/
theorem State.val_of_resolveFrom {s : State} {ps : List Param} {l l' : Latches} (h : s.resolveFrom l ps = .ok l') :
    l'.val.map Except.ok = l.val.map Except.ok ++ ps.map s.value := by
  induction ps generalizing l with
  | nil =>
    cases h
    simp
  | cons p ps ih =>
    obtain ⟨v, hv, h⟩ := State.resolveFrom_ok_iff.1 h
    rw [ih h, List.map_cons, hv]
    simp [Latches.push]

/-- The fold that `destOf` is keeps the last effective address there is. -/
theorem State.foldl_effAddr (s : State) (ps : List Param) (d : Option Int) :
    ps.foldl (fun d p => (s.effAddr p).or d) d = (ps.filterMap s.effAddr).getLast?.or d := by
  induction ps generalizing d with
  | nil => rfl
  | cons p ps ih =>
    rw [List.foldl_cons, ih]
    cases he : s.effAddr p with
    | none => simp [he]
    | some ea => cases hl : (ps.filterMap s.effAddr).getLast? <;> simp [List.getLast?_cons, he, hl]

/-- The destination is the effective address of the last parameter that has one (40_operand_addressing.md R125). -/
theorem State.destOf_eq (s : State) (ps : List Param) : s.destOf ps = (ps.filterMap s.effAddr).getLast? := by
  rw [State.destOf, State.foldl_effAddr, Option.or_none]

/-- Settles O12: values by induction over the loop, the destination by the fold that says it. -/
theorem destinationIsLastAddressedParameter : Obligations.DestinationIsLastAddressedParameter :=
  fun s ps _ h => ⟨(State.val_of_resolveFrom h).symm, (State.dest_of_resolve h).trans (s.destOf_eq ps)⟩

/-- Settles O13: a resolved destination is a mapped address. -/
theorem writeAddressAlreadyRead : Obligations.WriteAddressAlreadyRead :=
  fun _ _ _ _ _ h hd => ⟨_, State.memWrite_of_mapped (State.mapped_dest h hd)⟩

theorem State.resolveFrom_immediate (s : State) {ps : List Param} (hps : ∀ p ∈ ps, p.mode = .immediate)
    (l : Latches) : ∃ l', s.resolveFrom l ps = .ok l' ∧ l'.dest = l.dest := by
  induction ps generalizing l with
  | nil => exact ⟨l, rfl, rfl⟩
  | cons p ps ih =>
    have hp := hps p List.mem_cons_self
    obtain ⟨l', hres, hdest⟩ := ih (fun q hq => hps q (List.mem_cons_of_mem p hq)) (l.push p.raw none)
    refine ⟨l', ?_, hdest⟩
    rw [State.resolveFrom, s.value_of_immediate hp, s.effAddr_of_immediate hp]
    exact hres

/-- IMMEDIATE parameters only always resolve, and leave no destination. -/
theorem State.resolve_immediate (s : State) {ps : List Param} (hps : ∀ p ∈ ps, p.mode = .immediate) :
    ∃ l, s.resolve ps = .ok l ∧ l.dest = none :=
  s.resolveFrom_immediate hps Latches.empty

/-- A resolution fault is that of the first parameter that cannot be read, all before it being readable. -/
theorem State.resolveFrom_error {s : State} {ps : List Param} {l : Latches} {t : Trap}
    (h : s.resolveFrom l ps = .error t) :
    ∃ (k : Nat) (p : Param), ps[k]? = some p ∧ s.value p = .error t ∧
      ∀ j < k, ∃ q v, ps[j]? = some q ∧ s.value q = .ok v := by
  induction ps generalizing l with
  | nil => cases h
  | cons p ps ih =>
    cases hv : s.value p with
    | error e =>
      rw [State.resolveFrom, hv] at h
      cases h
      exact ⟨0, p, rfl, hv, fun j hj => (Nat.not_lt_zero j hj).elim⟩
    | ok v =>
      rw [State.resolveFrom, hv] at h
      obtain ⟨k, q, hk, hq, hbefore⟩ := ih h
      refine ⟨k + 1, q, hk, hq, fun j hj => ?_⟩
      cases j with
      | zero => exact ⟨p, v, rfl, hv⟩
      | succ j => exact hbefore j (by omega)

/-- When resolution succeeds, every parameter is readable. -/
theorem State.value_of_resolve {s : State} {ps : List Param} {l : Latches} (h : s.resolve ps = .ok l) {p : Param}
    (hp : p ∈ ps) : ∃ v, s.value p = .ok v := by
  have hmem : s.value p ∈ ps.map s.value := List.mem_map_of_mem hp
  rw [(destinationIsLastAddressedParameter s ps l h).1, List.mem_map] at hmem
  obtain ⟨v, -, hv⟩ := hmem
  exact ⟨v, hv.symm⟩

end Sys2Proof.Machine
end

section
/-! The families of spec/42_alu.md to spec/45_base_and_halt.md: what each instruction does, and where its forms
fault. -/

namespace Sys2Proof.Machine

/-! ### The shared ALU handler -/

/-- A destination and a result that faults: the handler raises that fault. -/
theorem aluHandler_error {result : State → Int → Int → Except Trap Int} {l : Latches} {s : State} {d : Int}
    {t : Trap} (hd : l.dest = some d) (hr : result s (l.v 0) (l.v 1) = .error t) : aluHandler result l s = .error t := by
  simp [aluHandler, Latches.destination_ok_iff.2 hd, hr]

/-- Three readable parameters with a destination, and a result that faults: that fault is taken. -/
theorem State.runHandler_alu_error {result : State → Int → Int → Except Trap Int} {p0 p1 p2 : Param} {s : State}
    {a b c d : Int} {t : Trap} (h0 : s.value p0 = .ok a) (h1 : s.value p1 = .ok b) (h2 : s.value p2 = .ok c)
    (hd : s.destOf [p0, p1, p2] = some d) (hr : result s a b = .error t) :
    s.runHandler [p0, p1, p2] (aluHandler result) = .next (s.takeFault t) := by
  rw [State.runHandler_of_resolve (State.resolve_three.2 ⟨a, b, c, h0, h1, h2, rfl⟩), aluHandler_error hd hr]

/-- Settles O14: the checked sum of the shared handler. -/
theorem addStoresSum : Obligations.AddStoresSum :=
  fun _ _ _ _ _ _ _ _ h0 h1 h2 hd hr => State.runHandler_alu_of h0 h1 h2 hd (State.checked_of_inRange hr)

/-- Settles O15: the checked product of the shared handler. -/
theorem mulStoresProduct : Obligations.MulStoresProduct :=
  fun _ _ _ _ _ _ _ _ h0 h1 h2 hd hr => State.runHandler_alu_of h0 h1 h2 hd (State.checked_of_inRange hr)

/-- Settles O16: the comparison word of the shared handler. -/
theorem ltStoresSignedComparison : Obligations.LtStoresSignedComparison :=
  fun _ _ _ _ a b _ _ h0 h1 h2 hd => State.runHandler_alu_of h0 h1 h2 hd (congrArg Except.ok (ltWord_eq a b))

/-- Settles O17: the equality word of the shared handler. -/
theorem eqStoresEquality : Obligations.EqStoresEquality :=
  fun _ _ _ _ a b _ _ h0 h1 h2 hd => State.runHandler_alu_of h0 h1 h2 hd (congrArg Except.ok (eqWord_eq a b))

/-- ADD with a sum that is no Word takes the overflow fault (92_eei_decisions.md D3). -/
theorem exec_add_overflow {p0 p1 p2 : Param} {s : State} {a b c d : Int} (h0 : s.value p0 = .ok a)
    (h1 : s.value p1 = .ok b) (h2 : s.value p2 = .ok c) (hd : s.destOf [p0, p1, p2] = some d)
    (hr : s.cfg.wordBits.inRange (a + b) = false) :
    exec (.add p0 p1 p2) s = .next (s.takeFault { cause := .arithmeticOverflow, info := a + b }) :=
  State.runHandler_alu_error h0 h1 h2 hd (State.checked_of_not_inRange hr)

/-- Settles O59: the bounds are those of `inRange`, and ADD checks its sum against them. -/
theorem wordRangeHasItsBounds : Obligations.WordRangeHasItsBounds := by
  refine ⟨WordBits.inRange_bounded_iff, WordBits.inRange_unbounded, fun p0 p1 p2 s n a b c d hn h0 h1 h2 hd => ?_⟩
  have hbounds := WordBits.inRange_bounded_iff n (a + b)
  rw [← hn] at hbounds
  split_ifs with hr
  · exact addStoresSum p0 p1 p2 s a b c d h0 h1 h2 hd (hbounds.2 hr)
  · exact exec_add_overflow h0 h1 h2 hd (Bool.eq_false_iff.2 fun h => hr (hbounds.1 h))

/-! ### Branches -/

/-- A branch with readable parameters goes to its target when taken, else past the instruction (43_branch.md R190,
R191). -/
theorem State.runHandler_branch {taken : Int → Bool} {p0 p1 : Param} {s : State} {c a : Int}
    (h0 : s.value p0 = .ok c) (h1 : s.value p1 = .ok a) :
    s.runHandler [p0, p1] (branchHandler taken) = .next (s.setPc (if taken c then a else s.pc + 3)) := by
  have hres : s.resolve [p0, p1] = .ok { val := [c, a], dest := s.destOf [p0, p1] } :=
    State.resolve_two.2 ⟨c, a, h0, h1, rfl⟩
  have hv0 : Latches.v { val := [c, a], dest := s.destOf [p0, p1] } 0 = c := rfl
  rw [State.runHandler_of_resolve hres, branchHandler, hv0]
  cases taken c <;> rfl

/-- Settles O18: the branch taken when the condition is not 0. -/
theorem jnzSetsPc : Obligations.JnzSetsPc := by
  intro p0 p1 s c a h0 h1
  have hrun : exec (.jnz p0 p1) s = .next (s.setPc (if (!isZero c) = true then a else s.pc + 3)) :=
    State.runHandler_branch h0 h1
  simp only [isZero_eq, Bool.not_eq_true', decide_eq_false_iff_not] at hrun
  exact hrun

/-- Settles O19: the branch taken when the condition is 0. -/
theorem jzSetsPc : Obligations.JzSetsPc := by
  intro p0 p1 s c a h0 h1
  have hrun : exec (.jz p0 p1) s = .next (s.setPc (if isZero c = true then a else s.pc + 3)) :=
    State.runHandler_branch h0 h1
  simp only [isZero_eq, decide_eq_true_eq] at hrun
  exact hrun

/-! ### IN, OUT, RB and HALT -/

/-- One readable parameter with an effective address, resolved. -/
theorem State.resolve_addressed {s : State} {p0 : Param} {c d : Int} (h : s.value p0 = .ok c)
    (hd : s.effAddr p0 = some d) : s.resolve [p0] = .ok { val := [c], dest := some d } := by
  refine State.resolve_one.2 ⟨c, h, ?_⟩
  simp [State.destOf, hd]

/-- Settles O20: the front value is popped and put at the parameter's address, which resolution has read. -/
theorem inPopsFrontIntoDestination : Obligations.InPopsFrontIntoDestination := by
  intro p0 s c d v q h hd hq
  have hrun := State.runHandler_of_resolve (hd := inHandler) (State.resolve_addressed h hd)
  rw [inHandler_of rfl hq (State.mapped_of_value h hd)] at hrun
  exact hrun

/-- Settles O28: the queue is looked at before anything is written. -/
theorem inOnEmptyQueueFaults : Obligations.InOnEmptyQueueFaults := by
  intro p0 s c d h hd hq
  have hrun := State.runHandler_of_resolve (hd := inHandler) (State.resolve_addressed h hd)
  simp only [inHandler, Latches.destination, hq] at hrun
  exact hrun

/-- Settles O21: the push, the advance and the late yield of `exec_out_of_value`. -/
theorem outPushesThenSuspendsLate : Obligations.OutPushesThenSuspendsLate :=
  fun _ _ _ h => exec_out_of_value h

/-- RB of a readable parameter is its handler on that value. -/
theorem exec_rb_of_value {p0 : Param} {s : State} {v : Int} (h : s.value p0 = .ok v) :
    exec (.rb p0) s =
      if s.rb + v < 0 then .next (s.takeFault { cause := .invalidRelativeBase, info := s.rb + v })
      else if s.cfg.wordBits.inRange (s.rb + v) = true then .next ((s.setRb (s.rb + v)).advance 2)
      else .next (s.takeFault { cause := .arithmeticOverflow, info := s.rb + v }) := by
  have hrun := State.runHandler_of_resolve (hd := rbHandler) (State.resolve_one.2 ⟨v, h, rfl⟩)
  have hv0 : Latches.v { val := [v], dest := s.destOf [p0] } 0 = v := rfl
  rw [rbHandler, hv0, State.checked] at hrun
  refine Eq.trans hrun ?_
  split_ifs <;> rfl

/-- Settles O22: neither check of RB fails. -/
theorem rbAddsToRelativeBase : Obligations.RbAddsToRelativeBase := by
  intro p0 s v h hnonneg hr
  rw [exec_rb_of_value h, if_neg (by omega), if_pos hr]
  rfl

/-- Settles O29: the sign is checked first. -/
theorem rbToNegativeBaseFaults : Obligations.RbToNegativeBaseFaults := by
  intro p0 s v h hneg
  rw [exec_rb_of_value h, if_pos hneg]
  rfl

/-- Settles O23: HALT has no operands, and its handler only sets status. -/
theorem haltKeepsPc : Obligations.HaltKeepsPc := fun _ => rfl

/-- Settles O27: the exact result of each of the three is checked and never stored. -/
theorem overflowFaultsAndNeverWraps : Obligations.OverflowFaultsAndNeverWraps := by
  refine ⟨fun p0 p1 p2 s a b c d h0 h1 h2 hd => ⟨fun hr => exec_add_overflow h0 h1 h2 hd hr, fun hr => ?_⟩,
    fun p0 s v h hnonneg hr => ?_⟩
  · exact State.runHandler_alu_error (result := fun s a b => s.checked (a * b)) h0 h1 h2 hd
      (State.checked_of_not_inRange hr)
  · rw [exec_rb_of_value h, if_neg (by omega), if_neg (by simp [hr])]
    rfl

/-! ### Faults every instruction shares -/

/-- Settles O25: every instruction resolves its own parameters first. -/
theorem operandFaultIsTaken : Obligations.OperandFaultIsTaken := by
  intro i s t h
  cases i with
  | add | mul | inp | out | jnz | jz | lt | eq | rb => exact State.runHandler_of_error h
  | halt => cases h

/-- Without a destination the ALU handler faults before its result is looked at (40_operand_addressing.md R127). -/
theorem aluHandler_no_destination {result : State → Int → Int → Except Trap Int} {l : Latches} (s : State)
    (hd : l.dest = none) : aluHandler result l s = .error { cause := .noDestination, info := 0 } := by
  simp [aluHandler, Latches.destination, hd]

/-- Without a destination IN faults before the queue is looked at (60_exceptions.md R231). -/
theorem inHandler_no_destination {l : Latches} (s : State) (hd : l.dest = none) :
    inHandler l s = .error { cause := .noDestination, info := 0 } := by
  simp [inHandler, Latches.destination, hd]

/-- An instruction with IMMEDIATE parameters only, whose handler faults without a destination. -/
theorem State.runHandler_no_destination {ps : List Param} {handler : Latches → State → Except Trap State}
    {s : State} (hps : ∀ p ∈ ps, p.mode = .immediate)
    (hh : ∀ l : Latches, l.dest = none → handler l s = .error { cause := .noDestination, info := 0 }) :
    s.runHandler ps handler = .next (s.takeFault { cause := .noDestination, info := 0 }) := by
  obtain ⟨l, hres, hdest⟩ := s.resolve_immediate hps
  rw [State.runHandler_of_resolve hres, hh l hdest]

/-- Settles O26: such parameters resolve and leave no destination, which each of the five handlers checks first. -/
theorem allImmediateWriterFaults : Obligations.AllImmediateWriterFaults := by
  intro i s hwrites hps
  cases i with
  | add | mul | lt | eq => exact State.runHandler_no_destination hps fun _ hd => aluHandler_no_destination s hd
  | inp => exact State.runHandler_no_destination hps fun _ hd => inHandler_no_destination s hd
  | out | jnz | jz | rb | halt => cases hwrites

end Sys2Proof.Machine
end

section
/-! Frames (60_exceptions.md R228 and the opcode sections of spec/42_alu.md to spec/45_base_and_halt.md): what an
instruction leaves unchanged, read off `Effect`, and the steps these frames are about. -/

namespace Sys2Proof.Machine

/-! ### What an effect leaves unchanged -/

theorem params_of_alu {i : Instr} {p0 p1 p2 : Param}
    (hi : i = .add p0 p1 p2 ∨ i = .mul p0 p1 p2 ∨ i = .lt p0 p1 p2 ∨ i = .eq p0 p1 p2) :
    i.params = [p0, p1, p2] ∧ i.opcode.length = 4 ∧ i.opcode.writes = true := by
  rcases hi with rfl | rfl | rfl | rfl <;> exact ⟨rfl, rfl, rfl⟩

/-- The grant and the host's calls are no instruction's business. -/
theorem Effect.grant_calls {s t : State} {i : Instr} (h : Effect s i t) :
    t.resumeGrant = s.resumeGrant ∧ t.calls = s.calls := by
  cases h with
  | fault | store | popped | pushed | jumped | passed | rebased | halted => exact ⟨rfl, rfl⟩

/-- Every address but the destination of the instruction's own operands reads as before. -/
theorem Effect.memRead_other {s t : State} {i : Instr} (h : Effect s i t) {b : Int}
    (hb : ∀ l, s.resolve i.params = .ok l → l.dest ≠ some b) : t.memRead b = s.memRead b := by
  have hother {d : Int} (u : State) (v : Int) (hm : s.mapped d = true) (hd : some d ≠ some b) (n : Nat)
      (hu : u.mem = s.mem ∧ u.cfg = s.cfg) : ((u.setCell d v).advance n).memRead b = s.memRead b := by
    have hbd : b ≠ d := fun e => hd (congrArg some e.symm)
    calc ((u.setCell d v).advance n).memRead b
      _ = (u.setCell d v).memRead b := congrFun (State.memRead_congr rfl rfl) b
      _ = u.memRead b := u.memRead_setCell_other d b v ((s.mapped_iff d).1 hm).1 hbd
      _ = s.memRead b := congrFun (State.memRead_congr hu.1 hu.2) b
  cases h with
  | store p0 p1 p2 l d r is_alu resolved dest mapped word =>
    rw [(params_of_alu is_alu).1] at hb
    exact hother s r mapped (dest ▸ hb l resolved) 4 ⟨rfl, rfl⟩
  | popped p0 l d v q resolved dest mapped front =>
    exact hother (s.setInQ q) v mapped (dest ▸ hb l resolved) 2 ⟨rfl, rfl⟩
  | fault | pushed | jumped | passed | rebased | halted => exact congrFun (State.memRead_congr rfl rfl) b

/-- Only the five writers change memory (40_operand_addressing.md R127). -/
theorem Effect.mem_eq_or {s t : State} {i : Instr} (h : Effect s i t) :
    t.mem = s.mem ∨ i.opcode.writes = true := by
  cases h with
  | store _ _ _ _ _ _ is_alu => exact .inr (params_of_alu is_alu).2.2
  | popped => exact .inr rfl
  | fault | pushed | jumped | passed | rebased | halted => exact .inl rfl

/-- Only RB changes rb (10_state.md R35). -/
theorem Effect.rb_eq_or {s t : State} {i : Instr} (h : Effect s i t) : t.rb = s.rb ∨ ∃ p0, i = .rb p0 := by
  cases h with
  | rebased p0 => exact .inr ⟨p0, rfl⟩
  | fault | store | popped | pushed | jumped | passed | halted => exact .inl rfl

/-- Only IN takes from the input queue, its front. -/
theorem Effect.inQ_eq_or {s t : State} {i : Instr} (h : Effect s i t) :
    t.inQ = s.inQ ∨ ∃ p0 v, i = .inp p0 ∧ s.inQ = v :: t.inQ := by
  cases h with
  | popped p0 l d v q resolved dest mapped front => exact .inr ⟨p0, v, rfl, front⟩
  | fault | store | pushed | jumped | passed | rebased | halted => exact .inl rfl

/-- Only OUT adds to the output queue, at its back, and then it is the late yield; it alone sets the marker. -/
theorem Effect.output_eq_or {s t : State} {i : Instr} (h : Effect s i t) :
    (t.outQ = s.outQ ∧ t.yieldMarker = s.yieldMarker) ∨
    ∃ p0 v, i = .out p0 ∧ t = ((s.pushOut v).advance 2).yieldLate := by
  cases h with
  | pushed p0 v => exact .inr ⟨p0, v, rfl, rfl⟩
  | fault | store | popped | jumped | passed | rebased | halted => exact .inl ⟨rfl, rfl⟩

/-- The fault record changes only by a fault taken. -/
theorem Effect.fault_eq_or {s t : State} {i : Instr} (h : Effect s i t) :
    t.fault = s.fault ∨ ∃ tr, t = s.takeFault tr := by
  cases h with
  | fault tr => exact .inr ⟨tr, rfl⟩
  | store | popped | pushed | jumped | passed | rebased | halted => exact .inl rfl

/-- Status and the fault record together: kept but for OUT's and HALT's own status, or a fault is taken. -/
theorem Effect.control_cases {s t : State} {i : Instr} (h : Effect s i t) :
    (t.fault = s.fault ∧ (i.opcode ≠ .out → i.opcode ≠ .halt → t.status = s.status)) ∨
    ∃ tr, t = s.takeFault tr := by
  rcases h.fault_eq_or with hfault | htaken
  · rcases h.status_cases with hsame | ⟨hout, -⟩ | ⟨rfl, -⟩ | htaken
    · exact .inl ⟨hfault, fun _ _ => hsame⟩
    · exact .inl ⟨hfault, fun hne => absurd hout hne⟩
    · exact .inl ⟨hfault, fun _ hne => absurd rfl hne⟩
    · exact .inr htaken
  · exact .inr htaken

/-- pc after an effect: past the instruction's words, unless it is a jump, HALT or a fault (41_execution_cycle.md R149,
R150). -/
theorem Effect.pc_cases {s t : State} {i : Instr} (h : Effect s i t) :
    (∃ tr, t = s.takeFault tr) ∨ (i.opcode = .halt ∧ t.pc = s.pc) ∨
    (i.opcode = .jnz ∨ i.opcode = .jz) ∨ (i.opcode ≠ .halt ∧ t.pc = s.pc + (i.opcode.length : Int)) := by
  have hbranch {p0 p1 : Param} (hi : i = .jnz p0 p1 ∨ i = .jz p0 p1) : i.opcode = .jnz ∨ i.opcode = .jz :=
    hi.imp (congrArg Instr.opcode) (congrArg Instr.opcode)
  cases h with
  | fault tr => exact .inl ⟨tr, rfl⟩
  | halted => exact .inr (.inl ⟨rfl, rfl⟩)
  | jumped p0 p1 a is_branch => exact .inr (.inr (.inl (hbranch is_branch)))
  | passed p0 p1 is_branch => exact .inr (.inr (.inl (hbranch is_branch)))
  | store _ _ _ _ _ _ is_alu =>
    obtain ⟨-, hlen, hwrites⟩ := params_of_alu is_alu
    refine .inr (.inr (.inr ⟨fun hhalt => ?_, ?_⟩))
    · rw [hhalt] at hwrites
      cases hwrites
    · rw [hlen]
      rfl
  | popped | pushed | rebased => exact .inr (.inr (.inr ⟨Opcode.noConfusion, rfl⟩))

/-! ### The frames -/

/-- Settles O30: the frames of `Effect` at an ALU instruction. -/
theorem aluFrame : Obligations.AluFrame := by
  intro p0 p1 p2 s t i hi h
  have he := exec_effect h
  obtain ⟨hparams, -, -⟩ := params_of_alu hi
  have hop : i.opcode ≠ .inp ∧ i.opcode ≠ .out ∧ i.opcode ≠ .rb ∧ i.opcode ≠ .halt := by
    rcases hi with rfl | rfl | rfl | rfl <;> simp [Instr.opcode]
  obtain ⟨hinp, hout, hrb, hhalt⟩ := hop
  obtain ⟨hcfg, hpolicy, hid⟩ := State.parameters_eq_iff.1 he.parameters_eq
  obtain ⟨hgrant, hcalls⟩ := he.grant_calls
  have hrb' : t.rb = s.rb := he.rb_eq_or.resolve_right fun ⟨_, e⟩ => hrb (congrArg Instr.opcode e)
  have hinQ : t.inQ = s.inQ := he.inQ_eq_or.resolve_right fun ⟨_, _, e, _⟩ => hinp (congrArg Instr.opcode e)
  obtain ⟨houtQ, hmarker⟩ := he.output_eq_or.resolve_right fun ⟨_, _, e, _⟩ => hout (congrArg Instr.opcode e)
  exact ⟨fun b hb => he.memRead_other (by rwa [hparams]), hrb', hcfg, hmarker, hgrant, hpolicy, hid, hinQ, houtQ,
    hcalls, he.control_cases.imp_left fun ⟨hfault, hstatus⟩ => ⟨hstatus hout hhalt, hfault⟩⟩

/-- Settles O31: the frames of `Effect` at IN, and its own pop. -/
theorem inFrame : Obligations.InFrame := by
  intro p0 s t h
  have he := exec_effect h
  obtain ⟨hcfg, hpolicy, hid⟩ := State.parameters_eq_iff.1 he.parameters_eq
  obtain ⟨hgrant, hcalls⟩ := he.grant_calls
  have hrb : t.rb = s.rb := he.rb_eq_or.resolve_right fun ⟨_, e⟩ => by cases e
  obtain ⟨houtQ, hmarker⟩ := he.output_eq_or.resolve_right fun ⟨_, _, e, _⟩ => by cases e
  have hpop : (t.status = s.status ∧ t.fault = s.fault ∧ t.inQ = s.inQ.tail) ∨ ∃ tr, t = s.takeFault tr := by
    cases he with
    | fault tr => exact .inr ⟨tr, rfl⟩
    | store _ _ _ _ _ _ is_alu => simp at is_alu
    | jumped _ _ _ is_branch | passed _ _ is_branch => simp at is_branch
    | popped p0 l d v q resolved dest mapped front => exact .inl ⟨rfl, rfl, by rw [front]; rfl⟩
  exact ⟨fun b hb => he.memRead_other hb, hrb, hcfg, hmarker, hgrant, hpolicy, hid, houtQ, hcalls, hpop⟩

/-- Settles O32: the frames of `Effect` at an instruction that writes no memory. -/
theorem nonStoringFrame : Obligations.NonStoringFrame := by
  intro i s t hwrites h
  have he := exec_effect h
  obtain ⟨hcfg, hpolicy, hid⟩ := State.parameters_eq_iff.1 he.parameters_eq
  obtain ⟨hgrant, hcalls⟩ := he.grant_calls
  have hmem : t.mem = s.mem := he.mem_eq_or.resolve_right (by simp [hwrites])
  have hinQ : t.inQ = s.inQ := he.inQ_eq_or.resolve_right fun ⟨_, _, e, _⟩ => by
    rw [e] at hwrites
    cases hwrites
  refine ⟨fun b => congrFun (State.memRead_congr hmem hcfg) b, hcfg, hpolicy, hid, hgrant, hinQ, hcalls,
    fun hrb => ?_, fun hout => ?_, fun hhalt => ?_, he.control_cases⟩
  · exact he.rb_eq_or.resolve_right fun ⟨_, e⟩ => hrb (congrArg Instr.opcode e)
  · exact he.output_eq_or.resolve_right fun ⟨_, _, e, _⟩ => hout (congrArg Instr.opcode e)
  · rcases he.pc_cases with ⟨tr, rfl⟩ | ⟨-, hpc⟩ | (hjnz | hjz) | ⟨hne, -⟩
    · rfl
    · exact hpc
    · exact Opcode.noConfusion (hhalt.symm.trans hjnz)
    · exact Opcode.noConfusion (hhalt.symm.trans hjz)
    · exact absurd hhalt hne

/-- Settles O40: pc of each effect that is no fault. -/
theorem pcAdvancesByLength : Obligations.PcAdvancesByLength := by
  intro s t i h hno
  rcases (exec_effect h).pc_cases with ⟨tr, e⟩ | ⟨hhalt, hpc⟩ | (hjnz | hjz) | ⟨hne, hpc⟩
  · exact absurd e (hno tr)
  · exact ⟨fun _ _ hne => absurd hhalt hne, fun _ => hpc⟩
  · exact ⟨fun hne => absurd hjnz hne, fun hhalt => Opcode.noConfusion (hhalt.symm.trans hjnz)⟩
  · exact ⟨fun _ hne => absurd hjz hne, fun hhalt => Opcode.noConfusion (hhalt.symm.trans hjz)⟩
  · exact ⟨fun _ _ _ => hpc, fun hhalt => absurd hhalt hne⟩

/-! ### Steps of a Running state -/

/-- What the step of a Running state can be: a fetch fault taken, the early yield, or an effect of the fetched
instruction on the state with the grant cleared. -/
theorem step_running_cases {s t : State} (hs : s.status = .running) (h : step s = .next t) :
    (∃ tr, t = s.takeFault tr) ∨
    (∃ i, s.fetchInstr = .ok i ∧ s.yieldsBefore i.opcode = true ∧ t = s.yieldEarly) ∨
    (∃ i, s.fetchInstr = .ok i ∧ s.yieldsBefore i.opcode = false ∧ Effect s.clearGrant i t) := by
  rw [step_running hs] at h
  rcases engineStep_cases s with ⟨tr, -, e⟩ | ⟨i, hf, hy, e⟩ | ⟨i, hf, hy, e⟩ <;> rw [e] at h
  · cases h
    exact .inl ⟨tr, rfl⟩
  · cases h
    exact .inr (.inl ⟨i, hf, hy, rfl⟩)
  · exact .inr (.inr ⟨i, hf, hy, exec_effect h⟩)

/-- Settles O45: a fetch fault and the early yield write none of the four, an effect only as `Effect` says. -/
theorem eachStateWrittenOnlyByItsInstructions : Obligations.EachStateWrittenOnlyByItsInstructions := by
  intro s t hs h
  rcases step_running_cases hs h with ⟨tr, rfl⟩ | ⟨i, -, -, rfl⟩ | ⟨i, hf, -, he⟩
  · exact ⟨absurd rfl, absurd rfl, absurd rfl, absurd rfl⟩
  · exact ⟨absurd rfl, absurd rfl, absurd rfl, absurd rfl⟩
  · refine ⟨fun hne => ?_, fun hne => ?_, fun hne => ?_, fun hne => ?_⟩
    · obtain ⟨p0, v, rfl, hpop⟩ := he.inQ_eq_or.resolve_left hne
      exact ⟨p0, v, hf, hpop⟩
    · obtain ⟨p0, v, rfl, rfl⟩ := he.output_eq_or.resolve_left fun ⟨e, _⟩ => hne e
      exact ⟨p0, v, hf, rfl⟩
    · obtain ⟨p0, rfl⟩ := he.rb_eq_or.resolve_left hne
      exact ⟨p0, hf⟩
    · exact ⟨i, hf, he.mem_eq_or.resolve_left hne⟩

/-- Settles O46: the fault is the fetch's, taken on the state itself, or the instruction's, taken with the grant
cleared. -/
theorem faultsArePrecise : Obligations.FaultsArePrecise := by
  intro s t hs h hfaulted
  rcases step_running_cases hs h with ⟨tr, rfl⟩ | ⟨i, -, -, rfl⟩ | ⟨i, -, -, he⟩
  · exact ⟨_, rfl, rfl⟩
  · cases hfaulted
  · rcases he.status_cases with hsame | ⟨-, hsusp, -⟩ | ⟨-, hhalted⟩ | ⟨tr, rfl⟩
    · exact Status.noConfusion (hfaulted.symm.trans (hsame.trans hs))
    · exact Status.noConfusion (hfaulted.symm.trans hsusp)
    · exact Status.noConfusion (hfaulted.symm.trans hhalted)
    · exact ⟨_, rfl, rfl⟩

end Sys2Proof.Machine
end

section
/-! The family of spec/41_execution_cycle.md and spec/60_exceptions.md: the fetch and its faults in their order (R146,
R231), the policy check (R147), and the states that end a run (R229, R239). -/

namespace Sys2Proof

/-! ### Rejected opcode words -/

theorem decodeOpword_negative {w : Int} (h : w < 0) : decodeOpword w = .error (.unknownOpcode w) := by
  simp [decodeOpword, h]

theorem decodeOpword_unknown {w : Int} (h0 : 0 ≤ w) (h : w.toNat % 100 ∉ [1, 2, 3, 4, 5, 6, 7, 8, 9, 99]) :
    decodeOpword w = .error (.unknownOpcode w) := by
  simp [decodeOpword, Int.not_lt.2 h0, (Opcode.ofValue_eq_none_iff _).2 h]

/-- A mode field whose digit is at most 2 is accepted. -/
theorem modeField_of_digit_le {n i w : Nat} (h : digit (2 + i) w ≤ 2) : ∃ m, modeField n i w = .ok m := by
  cases hm : modeField n i w with
  | ok m => exact ⟨m, rfl⟩
  | error e =>
    obtain ⟨⟨-, hbad⟩, -⟩ := (modeField_eq_error_iff n i w e).1 hm
    omega

/-- The lowest bad mode digit in use is the one reported (60_exceptions.md R231). -/
theorem decodeOpword_invalidMode {w : Int} {op : Opcode} {i : Nat} (h0 : 0 ≤ w) (hop : w.toNat % 100 = op.value)
    (hi : i < op.arity) (hbad : 2 < digit (2 + i) w.toNat) (hgood : ∀ j < i, digit (2 + j) w.toNat ≤ 2) :
    decodeOpword w = .error (.invalidMode i) := by
  have hv := (Opcode.ofValue_eq_some_iff _ op).2 hop
  have herr := (modeField_eq_error_iff op.arity i w.toNat (.invalidMode i)).2 ⟨⟨hi, hbad⟩, rfl⟩
  have hi3 : i = 0 ∨ i = 1 ∨ i = 2 := by
    have := op.arity_le
    omega
  rcases hi3 with rfl | rfl | rfl
  · simp [decodeOpword, Int.not_lt.2 h0, hv, herr]
  · obtain ⟨m0, hm0⟩ := modeField_of_digit_le (n := op.arity) (hgood 0 (by omega))
    simp [decodeOpword, Int.not_lt.2 h0, hv, hm0, herr]
  · obtain ⟨m0, hm0⟩ := modeField_of_digit_le (n := op.arity) (hgood 0 (by omega))
    obtain ⟨m1, hm1⟩ := modeField_of_digit_le (n := op.arity) (hgood 1 (by omega))
    simp [decodeOpword, Int.not_lt.2 h0, hv, hm0, hm1, herr]

/-- What decoding a list of words has read. -/
theorem decodeWords_ok {ws rest : List Int} {i : Instr} (h : decodeWords ws = .ok (i, rest)) :
    ∃ w hd, ws[0]? = some w ∧ decodeOpword w = .ok hd ∧ hd.build (wordParam ws) = .ok i := by
  cases ws with
  | nil => cases h
  | cons w ws =>
    cases hdec : decodeOpword w with
    | error e => simp [decodeWords, hdec] at h
    | ok hd =>
      cases hbuild : hd.build (wordParam (w :: ws)) with
      | error e => simp [decodeWords, hdec, hbuild] at h
      | ok j =>
        simp only [decodeWords, hdec, hbuild, Except.ok.injEq, Prod.mk.injEq] at h
        obtain ⟨rfl, -⟩ := h
        exact ⟨w, hd, rfl, hdec, hbuild⟩

theorem wordParam_ok {ws : List Int} {k : Nat} {m : Mode} {p : Param} (h : wordParam ws k m = .ok p) :
    ws[k + 1]? = some p.raw ∧ p.mode = m := by
  unfold wordParam at h
  cases hw : ws[k + 1]? with
  | none => simp [hw] at h
  | some r =>
    simp only [hw, Except.ok.injEq] at h
    subst h
    exact ⟨rfl, rfl⟩

end Sys2Proof

namespace Sys2Proof.Machine

/-! ### The fetch -/

theorem State.fetchParam_missing {s : State} {k : Nat} {m : Mode} {t : Trap}
    (h : s.memRead (s.pc + 1 + k) = .error t) : s.fetchParam k m = .error t := by
  simp [State.fetchParam, h]

theorem State.fetchParam_unreadable {s : State} {k : Nat} {m : Mode} {raw : Int} {t : Trap}
    (h : s.memRead (s.pc + 1 + k) = .ok raw) (hv : s.value { mode := m, raw := raw } = .error t) :
    s.fetchParam k m = .error t := by
  simp [State.fetchParam, h, hv]

theorem State.fetchParam_readable {s : State} {k : Nat} {m : Mode} {raw v : Int}
    (h : s.memRead (s.pc + 1 + k) = .ok raw) (hv : s.value { mode := m, raw := raw } = .ok v) :
    s.fetchParam k m = .ok { mode := m, raw := raw } := by
  simp [State.fetchParam, h, hv]

theorem State.fetchInstr_outside {s : State} (h : s.mapped s.pc = false) :
    s.fetchInstr = .error { cause := .memoryFault, info := s.pc } := by
  simp [State.fetchInstr, State.memRead_of_unmapped h]

theorem State.fetchInstr_rejected {s : State} {w : Int} {e : OpwordError} (h : s.memRead s.pc = .ok w)
    (hd : decodeOpword w = .error e) : s.fetchInstr = .error (opwordTrap e) := by
  simp [State.fetchInstr, h, hd]

theorem State.fetchInstr_of_head {s : State} {w : Int} {hd : Head} (h : s.memRead s.pc = .ok w)
    (hdec : decodeOpword w = .ok hd) : s.fetchInstr = hd.build s.fetchParam := by
  simp [State.fetchInstr, h, hdec]

/-- The fetch stops at the first parameter it cannot fetch, whatever stands after it (40_operand_addressing.md R120). -/
theorem State.fetchInstr_param_error {s : State} {w : Int} {hd : Head} {k : Nat} {t : Trap}
    (h : s.memRead s.pc = .ok w) (hdec : decodeOpword w = .ok hd) (hk : k < hd.op.arity)
    (hbefore : ∀ j < k, ∃ r v, s.memRead (s.pc + 1 + j) = .ok r ∧ s.value { mode := hd.mode j, raw := r } = .ok v)
    (hfail : s.fetchParam k (hd.mode k) = .error t) : s.fetchInstr = .error t := by
  rw [State.fetchInstr_of_head h hdec]
  refine Head.build_error hk (fun j hj => ?_) hfail
  obtain ⟨r, v, hr, hv⟩ := hbefore j hj
  exact ⟨_, State.fetchParam_readable hr hv⟩

/-- An address that is negative or not below CAPACITY is not mapped. -/
theorem State.mapped_eq_false {s : State} {a : Int} (h : a < 0 ∨ (s.cfg.capacity : Int) ≤ a) :
    s.mapped a = false := by
  rw [Bool.eq_false_iff]
  intro hm
  have := (s.mapped_iff a).1 hm
  omega

/-- The fetch of the instruction that the words at pc decode to: the instruction, or the fault of its operands. -/
theorem State.fetchInstr_of_words {s : State} {i : Instr} {rest : List Int}
    (h : decodeWords (s.wordsAt s.pc 4) = .ok (i, rest)) :
    (∀ t, s.resolve i.params = .error t → s.fetchInstr = .error t) ∧
    ∀ l, s.resolve i.params = .ok l → s.fetchInstr = .ok i := by
  obtain ⟨w, hd, hw, hdec, hbuild⟩ := decodeWords_ok h
  have hread : s.memRead s.pc = .ok w := by simpa using State.memRead_of_wordsAt hw
  obtain ⟨hop, -, hwords⟩ := Head.build_ok hbuild
  have hparam {k : Nat} {p : Param} (hk : i.params[k]? = some p) :
      s.memRead (s.pc + 1 + k) = .ok p.raw ∧ p = { mode := hd.mode k, raw := p.raw } := by
    obtain ⟨hraw, hmode⟩ := wordParam_ok (hwords k p hk)
    have hr := State.memRead_of_wordsAt hraw
    have haddr : s.pc + ((k + 1 : Nat) : Int) = s.pc + 1 + k := by push_cast; ring
    exact ⟨haddr ▸ hr, by rw [← hmode]⟩
  have hgood {k : Nat} {p : Param} {v : Int} (hk : i.params[k]? = some p) (hv : s.value p = .ok v) :
      s.fetchParam k (hd.mode k) = .ok p := by
    obtain ⟨hr, hp⟩ := hparam hk
    exact (State.fetchParam_readable hr (hp ▸ hv)).trans (congrArg Except.ok hp.symm)
  rw [State.fetchInstr_of_head hread hdec]
  refine ⟨fun t ht => ?_, fun l hl => ?_⟩
  · obtain ⟨k, p, hk, hp, hbefore⟩ := State.resolveFrom_error ht
    have hlt : k < hd.op.arity := by
      rw [← hop, ← i.length_params]
      exact (List.getElem?_eq_some_iff.1 hk).1
    obtain ⟨hr, heq⟩ := hparam hk
    refine Head.build_error hlt (fun j hj => ?_) (State.fetchParam_unreadable hr (heq ▸ hp))
    obtain ⟨q, v, hq, hv⟩ := hbefore j hj
    exact ⟨q, hgood hq hv⟩
  · refine Head.build_of_params hop.symm fun k p hk => ?_
    obtain ⟨v, hv⟩ := State.value_of_resolve hl (List.mem_of_getElem? hk)
    exact hgood hk hv

/-! ### The step -/

theorem step_of_fetch_error {s : State} {t : Trap} (hs : s.status = .running) (hf : s.fetchInstr = .error t) :
    step s = .next (s.takeFault t) := by
  simp [step_running hs, engineStep, hf]

/-- The step at a fetched instruction: the early yield if its category is held back, else the instruction. -/
theorem step_of_fetch {s : State} {i : Instr} (hs : s.status = .running) (hf : s.fetchInstr = .ok i) :
    step s =
      if i.opcode ≠ .out ∧ s.breakPolicy.getLsbD (policyBit i.opcode) = true ∧ s.resumeGrant = false then
        .next s.yieldEarly
      else exec i s.clearGrant := by
  simp only [step_running hs, engineStep, hf, State.yieldsBefore_iff]

theorem State.clearGrant_eq_self {s : State} (h : s.resumeGrant = false) : s.clearGrant = s := by
  rw [State.clearGrant, ← h]

/-- Settles O5: the word at pc is rejected before anything else is read. -/
theorem unknownOpcodeFaultsAtItsPc : Obligations.UnknownOpcodeFaultsAtItsPc :=
  fun _ _ hs hr h0 hw => step_of_fetch_error hs (State.fetchInstr_rejected hr (decodeOpword_unknown h0 hw))

/-- Settles O6: the sign is checked first. -/
theorem negativeOpcodeWordFaults : Obligations.NegativeOpcodeWordFaults :=
  fun _ _ hs hr hw => step_of_fetch_error hs (State.fetchInstr_rejected hr (decodeOpword_negative hw))

/-- Settles O7: every used mode digit is checked, the lowest first, before any operand word is read. -/
theorem invalidModeFaultsBeforeOperands : Obligations.InvalidModeFaultsBeforeOperands :=
  fun _ _ _ _ hs hr h0 hop hi hbad hgood =>
    step_of_fetch_error hs (State.fetchInstr_rejected hr (decodeOpword_invalidMode h0 hop hi hbad hgood))

/-- Settles O34: the fetch's first read is at pc. -/
theorem fetchOutsideMemoryFaults : Obligations.FetchOutsideMemoryFaults :=
  fun _ hs hpc => step_of_fetch_error hs (State.fetchInstr_outside (State.mapped_eq_false hpc))

/-- Settles O35: the fetch stops at that parameter's value. -/
theorem firstOperandFaultWins : Obligations.FirstOperandFaultWins :=
  fun _ _ _ _ _ _ hs hr hdec hk hbefore hraw hv =>
    step_of_fetch_error hs (State.fetchInstr_param_error hr hdec hk hbefore (State.fetchParam_unreadable hraw hv))

/-- Settles O36: the fetch stops at that operand word. -/
theorem missingOperandWordFaults : Obligations.MissingOperandWordFaults := by
  intro s w h k hs hr hdec hk hcap hbefore
  have hmiss := State.memRead_of_unmapped (State.mapped_eq_false (.inr hcap))
  exact step_of_fetch_error hs (State.fetchInstr_param_error hr hdec hk hbefore (State.fetchParam_missing hmiss))

/-- Settles O33: fetching from memory agrees with decoding the words there. -/
theorem stepRunsDecodedInstruction : Obligations.StepRunsDecodedInstruction := by
  intro s i rest hs hdec
  obtain ⟨herror, hok⟩ := State.fetchInstr_of_words hdec
  cases hres : s.resolve i.params with
  | error t => exact step_of_fetch_error hs (herror t hres)
  | ok l => exact step_of_fetch hs (hok l hres)

/-- Settles O37: no policy gates OUT, and the step runs it with the grant cleared. -/
theorem outAlwaysYieldsLateNeverEarly : Obligations.OutAlwaysYieldsLateNeverEarly :=
  fun _ _ _ hs hf hv => step_of_fetched_out hs hf hv

/-- Settles O60: the bit of the policy check is the one with the category's number. -/
theorem breakPolicyBitsGateTheirCategories : Obligations.BreakPolicyBitsGateTheirCategories := by
  refine ⟨rfl, fun s i hs hgrant hf => ⟨fun k hk => ?_, fun hout => ?_⟩⟩
  · have hbit : i.opcode ≠ .out ∧ k = policyBit i.opcode := by
      rcases hk with ⟨h, rfl⟩ | ⟨h, rfl⟩ | ⟨h, rfl⟩ | ⟨h, rfl⟩ | ⟨h, rfl⟩ | ⟨h, rfl⟩ | ⟨h, rfl⟩ | ⟨h, rfl⟩ |
          ⟨h, rfl⟩ <;>
        simp [h, policyBit]
    obtain ⟨hne, rfl⟩ := hbit
    rw [step_of_fetch hs hf, State.clearGrant_eq_self hgrant]
    by_cases hset : s.breakPolicy.getLsbD (policyBit i.opcode) = true
    · rw [if_pos ⟨hne, hset, hgrant⟩, if_pos hset]
      rfl
    · rw [if_neg fun h => hset h.2.1, if_neg hset]
  · rw [step_of_fetch hs hf, State.clearGrant_eq_self hgrant, if_neg fun h => h.1 hout]

/-- A RUN that brings Words resumes an early yield (41_execution_cycle.md R141). -/
theorem State.runEntry_early {s : State} {c : RunCall} (hs : s.status = .suspended) (hm : s.yieldMarker = .early)
    (hw : c.wordsOnly s.cfg.wordBits = true) : s.runEntry c = .next (s.attachQueues c).resumeEarly := by
  simp [State.runEntry, hs, hm, hw]

/-- Settles O38: the RUN's grant lets the same fetch through the policy check once. -/
theorem gatedInstructionRunsOnce : Obligations.GatedInstructionRunsOnce := by
  intro s i c cs hs hm hgrant hf hout hbit hcalls hw
  have hyield : step s = .next s.yieldEarly := by rw [step_of_fetch hs hf, if_pos ⟨hout, hbit, hgrant⟩]
  have hresume : step s.yieldEarly = .next ((s.yieldEarly.setCalls cs).attachQueues c).resumeEarly := by
    rw [step_not_running (by simp), State.awaitRun, State.yieldEarly_calls, hcalls]
    exact State.runEntry_early rfl rfl hw
  refine ⟨s.yieldEarly, _, hyield, rfl, hresume, ?_⟩
  have hf' : ((s.yieldEarly.setCalls cs).attachQueues c).resumeEarly.fetchInstr = .ok i :=
    (State.fetchInstr_congr rfl rfl rfl rfl).trans hf
  rw [step_of_fetch rfl hf', if_neg (by simp)]
  congr 1
  simp only [State.clearGrant, State.resumeEarly, State.attachQueues, State.setCalls, State.yieldEarly, hs, hm, hgrant]

/-- Settles O41: the branch sets pc to its target, and the next fetch is outside memory. -/
theorem branchOutsideFaultsAtNextFetch : Obligations.BranchOutsideFaultsAtNextFetch := by
  intro s p0 p1 c a i hs h0 h1 hi hout
  have hexec : exec i s = .next (s.setPc a) := by
    rcases hi with ⟨rfl, hc⟩ | ⟨rfl, hc⟩
    · rw [jnzSetsPc p0 p1 s c a h0 h1, if_pos hc]
      rfl
    · rw [jzSetsPc p0 p1 s c a h0 h1, if_pos hc]
      rfl
  exact ⟨_, _, hexec, fetchOutsideMemoryFaults (s.setPc a) hs hout, rfl, rfl⟩

/-! ### A policy with every category other than OUT -/

/-- With all nine categories in the policy and no grant, a step is a fault, the early yield, or a fetched OUT. -/
theorem full_policy_step {s t : State} (hs : s.status = .running)
    (hpolicy : ∀ op : Opcode, op ≠ .out → s.breakPolicy.getLsbD (policyBit op) = true)
    (hgrant : s.resumeGrant = false) (h : step s = .next t) :
    (∃ tr, t = s.takeFault tr) ∨ t = s.yieldEarly ∨
    ∃ p0 v, s.fetchInstr = .ok (.out p0) ∧ t = ((s.pushOut v).advance 2).yieldLate := by
  rcases step_running_cases hs h with hfault | ⟨i, -, -, rfl⟩ | ⟨i, hf, hy, he⟩
  · exact .inl hfault
  · exact .inr (.inl rfl)
  · rw [State.clearGrant_eq_self hgrant] at he
    have hout : i.opcode = .out := by
      by_contra hne
      rw [(s.yieldsBefore_iff i.opcode).2 ⟨hne, hpolicy _ hne, hgrant⟩] at hy
      cases hy
    cases he with
    | fault tr => exact .inl ⟨tr, rfl⟩
    | pushed p0 v => exact .inr (.inr ⟨p0, v, hf, rfl⟩)
    | store _ _ _ _ _ _ is_alu => rcases is_alu with rfl | rfl | rfl | rfl <;> cases hout
    | jumped _ _ _ is_branch | passed _ _ is_branch => rcases is_branch with rfl | rfl <;> cases hout
    | popped | rebased | halted => cases hout

/-- Settles O56: a step that leaves the engine Running has run an instruction, which cleared the grant, so that
`full_policy_step` is about the next one. -/
theorem fullPolicySingleSteps : Obligations.FullPolicySingleSteps := by
  intro s t hs hpolicy h
  refine ⟨fun hgrant => full_policy_step hs hpolicy hgrant h, fun ht u hu => ?_⟩
  have hgrant : t.resumeGrant = false := by
    rcases step_running_cases hs h with ⟨tr, rfl⟩ | ⟨i, -, -, rfl⟩ | ⟨i, -, -, he⟩
    · cases ht
    · cases ht
    · exact he.grant_calls.1
  have hsame : t.breakPolicy = s.breakPolicy := (parametersNeverChange s t h).2.1
  exact full_policy_step ht (hsame ▸ hpolicy) hgrant hu

end Sys2Proof.Machine
end

section
/-! The family of spec/10_state.md and spec/70_reset_and_hazards.md: the invariant of the states the engine reaches. -/

namespace Sys2Proof.Machine

/-! ### Words in a state of the invariant -/

/-- Whatever a mapped cell holds is a Word: a listed word, or the 0 of an unlisted one (10_state.md R31, R32). -/
theorem State.Inv.memRead_word {s : State} (h : s.Inv) {a v : Int} (hr : s.memRead a = .ok v) :
    s.cfg.wordBits.inRange v = true := by
  obtain ⟨-, rfl⟩ := State.memRead_ok_iff.1 hr
  rcases s.mem.read_cases a.toNat with hzero | hlisted
  · rw [hzero]
    show s.cfg.wordBits.inRange 0 = true
    exact Config.inRange_of_small h.cfg_valid (Int.le_refl 0) (by omega)
  · exact h.mem_words _ hlisted

/-- The value of a well-formed parameter is a Word. -/
theorem State.Inv.value_word {s : State} (h : s.Inv) {p : Param} {v : Int}
    (hp : p.wf s.cfg.wordBits = true) (hv : s.value p = .ok v) : s.cfg.wordBits.inRange v = true := by
  unfold State.value at hv
  cases he : s.effAddr p with
  | none =>
    rw [he] at hv
    cases hv
    exact hp
  | some ea =>
    rw [he] at hv
    exact h.memRead_word hv

/-- pc stays a Word when it passes an instruction that was fetched: CAPACITY + 3 is one (00_scope.md R9). -/
theorem State.Inv.passed_pc_word {s : State} (h : s.Inv) (hpc : s.mapped s.pc = true) {n : Nat} (hn : n ≤ 4) :
    s.cfg.wordBits.inRange (s.pc + n) = true := by
  obtain ⟨h0, hcap⟩ := (s.mapped_iff _).1 hpc
  exact Config.inRange_of_small h.cfg_valid (by omega) (by omega)

theorem Instr.wf_iff {b : WordBits} {i : Instr} : i.wf b = true ↔ ∀ p ∈ i.params, p.wf b = true :=
  List.all_eq_true

/-- Settles O50: every operand word of a fetched instruction has been read from memory. -/
theorem fetchedInstructionIsWellFormed : Obligations.FetchedInstructionIsWellFormed := by
  intro s i h hf
  obtain ⟨_, _, -, -, -, hparam⟩ := State.fetchInstr_ok hf
  refine Instr.wf_iff.2 fun p hp => ?_
  obtain ⟨k, hk⟩ := List.mem_iff_getElem?.1 hp
  exact h.memRead_word (hparam k p hk).1

/-! ### What each update needs to keep the invariant -/

theorem State.Inv.setCell {s : State} (h : s.Inv) {a v : Int} (ha : s.mapped a = true)
    (hv : s.cfg.wordBits.inRange v = true) : (s.setCell a v).Inv :=
  { h with
    mem_wf := Memory.wf_write h.mem_wf _ _
    mem_mapped := fun c hc => by
      rcases Memory.mem_write hc with ⟨rfl, -⟩ | hc
      · obtain ⟨h0, hcap⟩ := (s.mapped_iff a).1 ha
        show a.toNat < s.cfg.capacity
        omega
      · exact h.mem_mapped c hc
    mem_words := fun c hc => by
      rcases Memory.mem_write hc with ⟨rfl, -⟩ | hc
      · exact hv
      · exact h.mem_words c hc }

theorem State.Inv.setPc {s : State} (h : s.Inv) {a : Int} (ha : s.cfg.wordBits.inRange a = true) : (s.setPc a).Inv :=
  { h with pc_word := ha }

theorem State.Inv.setRb {s : State} (h : s.Inv) {r : Int} (hr : s.cfg.wordBits.inRange r = true) (h0 : 0 ≤ r) :
    (s.setRb r).Inv :=
  { h with rb_word := hr, rb_nonneg := h0 }

theorem State.Inv.setInQ {s : State} (h : s.Inv) {q : List Int} (hq : allWords s.cfg.wordBits q) :
    (s.setInQ q).Inv :=
  { h with inQ_words := hq }

theorem allWords_append {b : WordBits} {q r : List Int} (hq : allWords b q) (hr : allWords b r) :
    allWords b (q ++ r) :=
  fun v hv => (List.mem_append.1 hv).elim (hq v) (hr v)

theorem State.Inv.pushOut {s : State} (h : s.Inv) {v : Int} (hv : s.cfg.wordBits.inRange v = true) :
    (s.pushOut v).Inv :=
  { h with outQ_words := allWords_append h.outQ_words fun w hw => by rw [List.mem_singleton.1 hw]; exact hv }

theorem State.Inv.clearGrant {s : State} (h : s.Inv) : s.clearGrant.Inv := { h with }

theorem State.Inv.setCalls {s : State} (h : s.Inv) (cs : List RunCall) : (s.setCalls cs).Inv := { h with }

/-- No fault record stands in a state that is not Faulted (10_state.md R41). -/
theorem State.Inv.no_fault {s : State} (h : s.Inv) (hs : s.status ≠ .faulted) : s.fault.isSome ≠ true :=
  fun hf => hs (h.fault_there.1 hf)

/-- No yield marker stands in a state that is not Suspended (10_state.md R38). -/
theorem State.Inv.no_marker {s : State} (h : s.Inv) (hs : s.status ≠ .suspended) : s.yieldMarker = .none :=
  h.marker.2 hs

theorem State.Inv.takeFault {s : State} (h : s.Inv) (hs : s.status = .running) (t : Trap) : (s.takeFault t).Inv :=
  { h with
    marker := iff_of_true (h.no_marker (by simp [hs])) (by simp)
    fault_there := iff_of_true rfl rfl }

theorem State.Inv.halt {s : State} (h : s.Inv) (hs : s.status = .running) : s.halt.Inv :=
  { h with
    marker := iff_of_true (h.no_marker (by simp [hs])) (by simp)
    fault_there := iff_of_false (h.no_fault (by simp [hs])) (by simp) }

theorem State.Inv.yieldEarly {s : State} (h : s.Inv) (hs : s.status = .running) : s.yieldEarly.Inv :=
  { h with
    marker := iff_of_false (by simp) (by simp)
    fault_there := iff_of_false (h.no_fault (by simp [hs])) (by simp) }

theorem State.Inv.yieldLate {s : State} (h : s.Inv) (hs : s.status = .running) : s.yieldLate.Inv :=
  { h with
    marker := iff_of_false (by simp) (by simp)
    fault_there := iff_of_false (h.no_fault (by simp [hs])) (by simp) }

theorem State.Inv.resumeEarly {s : State} (h : s.Inv) (hs : s.status = .suspended) : s.resumeEarly.Inv :=
  { h with
    marker := iff_of_true rfl (by simp)
    fault_there := iff_of_false (h.no_fault (by simp [hs])) (by simp) }

theorem State.Inv.resumeLate {s : State} (h : s.Inv) (hs : s.status = .suspended) : s.resumeLate.Inv :=
  { h with
    marker := iff_of_true rfl (by simp)
    fault_there := iff_of_false (h.no_fault (by simp [hs])) (by simp) }

theorem RunCall.wordsOnly_iff {c : RunCall} {b : WordBits} :
    c.wordsOnly b = true ↔ allWords b c.inQ.values ∧ allWords b c.outQ.values := by
  rw [RunCall.wordsOnly, Bool.and_eq_true, List.all_eq_true, List.all_eq_true, allWords, allWords]

theorem QueueArg.resolve_words {b : WordBits} {q : List Int} {a : QueueArg} (hq : allWords b q)
    (ha : allWords b a.values) : allWords b (a.resolve q) := by
  cases a with
  | same appended => exact allWords_append hq ha
  | other contents => exact ha

theorem State.Inv.attachQueues {s : State} (h : s.Inv) {c : RunCall} (hc : c.wordsOnly s.cfg.wordBits = true) :
    (s.attachQueues c).Inv :=
  { h with
    inQ_words := QueueArg.resolve_words h.inQ_words (RunCall.wordsOnly_iff.1 hc).1
    outQ_words := QueueArg.resolve_words h.outQ_words (RunCall.wordsOnly_iff.1 hc).2 }

/-! ### The step -/

theorem State.Inv.effect {s t : State} {i : Instr} (h : s.Inv) (hs : s.status = .running)
    (hpc : s.mapped s.pc = true) (hi : i.wf s.cfg.wordBits = true) (he : Effect s i t) : t.Inv := by
  have hparam := Instr.wf_iff.1 hi
  cases he with
  | fault tr => exact h.takeFault hs tr
  | store p0 p1 p2 l d r is_alu resolved dest mapped word =>
    have hr : s.cfg.wordBits.inRange r = true := by
      rcases word with hr | rfl | rfl
      · exact hr
      · exact Config.inRange_of_small h.cfg_valid (by omega) (by omega)
      · exact Config.inRange_of_small h.cfg_valid (by omega) (by omega)
    exact (h.setCell mapped hr).setPc (h.passed_pc_word hpc (Nat.le_refl 4))
  | popped p0 l d v q resolved dest mapped front =>
    have hwords : allWords s.cfg.wordBits (v :: q) := front ▸ h.inQ_words
    have hq := h.setInQ fun w hw => hwords w (List.mem_cons_of_mem v hw)
    exact (hq.setCell mapped (hwords v List.mem_cons_self)).setPc (h.passed_pc_word hpc (by omega))
  | pushed p0 v value =>
    have hv := h.value_word (hparam p0 List.mem_cons_self) value
    exact ((h.pushOut hv).setPc (h.passed_pc_word hpc (by omega))).yieldLate hs
  | jumped p0 p1 a is_branch value =>
    have hp1 : p1 ∈ i.params := by rcases is_branch with rfl | rfl <;> simp [Instr.params]
    exact h.setPc (h.value_word (hparam p1 hp1) value)
  | passed p0 p1 is_branch => exact h.setPc (h.passed_pc_word hpc (by omega))
  | rebased p0 r nonneg word => exact (h.setRb word nonneg).setPc (h.passed_pc_word hpc (by omega))
  | halted => exact h.halt hs

theorem State.Inv.engineStep {s t : State} (h : s.Inv) (hs : s.status = .running)
    (ht : Machine.engineStep s = .next t) : t.Inv := by
  rcases engineStep_cases s with ⟨tr, -, e⟩ | ⟨i, -, -, e⟩ | ⟨i, hf, -, e⟩ <;> rw [e] at ht
  · cases ht
    exact h.takeFault hs tr
  · cases ht
    exact h.yieldEarly hs
  · obtain ⟨w, -, hread, -⟩ := State.fetchInstr_ok hf
    have hpc : s.mapped s.pc = true := (State.memRead_ok_iff.1 hread).1
    exact h.clearGrant.effect hs hpc (fetchedInstructionIsWellFormed s i h hf) (exec_effect ht)

theorem State.Inv.runEntry {s t : State} {c : RunCall} (h : s.Inv) (ht : s.runEntry c = .next t) : t.Inv := by
  rcases State.runEntry_next ht with ⟨-, rfl⟩ | ⟨hw, ⟨-, rfl⟩ | ⟨hs, -, rfl⟩ | ⟨hs, -, rfl⟩⟩
  · exact h
  · exact h.attachQueues hw
  · exact (h.attachQueues hw).resumeEarly hs
  · exact (h.attachQueues hw).resumeLate hs

theorem State.Inv.awaitRun {s t : State} (h : s.Inv) (ht : s.awaitRun = .next t) : t.Inv := by
  rcases s.awaitRun_cases with ⟨-, e⟩ | ⟨c, cs, -, e⟩ <;> rw [e] at ht
  · cases ht
    exact h
  · exact (h.setCalls cs).runEntry ht

/-- Settles O51: the engine's step keeps the invariant update by update, and so does the entry of a RUN. -/
theorem everyStepKeepsInvariant : Obligations.EveryStepKeepsInvariant := by
  intro s t h ht
  by_cases hs : s.status = .running
  · exact h.engineStep hs ((step_running hs).symm.trans ht)
  · exact h.awaitRun ((step_not_running hs).symm.trans ht)

/-- Settles O48: each case of the engine's step is a next state, a fault taken included. -/
theorem runningStateAlwaysSteps : Obligations.RunningStateAlwaysSteps := by
  intro s hs
  rw [step_running hs]
  rcases engineStep_cases s with ⟨tr, -, e⟩ | ⟨i, -, -, e⟩ | ⟨i, -, -, e⟩
  · exact ⟨_, e⟩
  · exact ⟨_, e⟩
  · rw [e]
    exact exec_next i s.clearGrant

/-- A RUN that does not bring Words only brings a value that is none, in one of its two queues. -/
theorem RunCall.exists_not_word {c : RunCall} {b : WordBits} (h : c.wordsOnly b = false) :
    ∃ v, (v ∈ c.inQ.values ∨ v ∈ c.outQ.values) ∧ b.inRange v = false := by
  by_contra hno
  push Not at hno
  have hall : c.wordsOnly b = true :=
    RunCall.wordsOnly_iff.2 ⟨fun v hv => Bool.eq_true_of_not_eq_false (hno v (.inl hv)),
      fun v hv => Bool.eq_true_of_not_eq_false (hno v (.inr hv))⟩
  simp [hall] at h

/-- Settles O49: a Running state steps, and waiting fails only in the entry of a RUN, whose fault the marker of the
invariant rules out and whose refusal is the one named. -/
theorem stepRefusesOnlyBadChannelValues : Obligations.StepRefusesOnlyBadChannelValues := by
  intro s h
  by_cases hs : s.status = .running
  · obtain ⟨t, ht⟩ := runningStateAlwaysSteps s hs
    simp [ht]
  · rw [step_not_running hs]
    rcases s.awaitRun_cases with ⟨-, e⟩ | ⟨c, cs, hcalls, e⟩
    · simp [e]
    · rw [e]
      refine ⟨fun f hf => ?_, fun r hr => ?_⟩
      · obtain ⟨hsusp, hnone⟩ := State.runEntry_fault hf
        exact h.marker.1 hnone hsusp
      · obtain ⟨hr, hwords, hlive⟩ := State.runEntry_refused hr
        exact ⟨hr, hlive.resolve_left hs, c, cs, hcalls, RunCall.exists_not_word hwords⟩

/-! ### Construction -/

/-- Settles O53: each loaded cell holds a word of the program below CAPACITY, and every other element is at its reset
value. -/
theorem constructedInstanceMeetsInvariant : Obligations.ConstructedInstanceMeetsInvariant := by
  intro cfg program id policy s hcons
  obtain ⟨hvalid, hlen, hwords, rfl⟩ := State.construct_ok_iff.1 hcons
  have hzero : cfg.wordBits.inRange 0 = true := Config.inRange_of_small hvalid (Int.le_refl 0) (by omega)
  have hcell {c : Nat × Int} (hc : c ∈ Memory.load [] 0 program) : c.1 < cfg.capacity ∧ c.2 ∈ program := by
    rcases Memory.mem_load hc with ⟨-, hlt, hmem⟩ | hnil
    · exact ⟨by omega, hmem⟩
    · cases hnil
  exact
    { cfg_valid := hvalid
      mem_wf := Memory.wf_load Memory.wf_reset 0 program
      mem_mapped := fun _ hc => (hcell hc).1
      mem_words := fun c hc => hwords c.2 (hcell hc).2
      pc_word := hzero
      rb_word := hzero
      rb_nonneg := Int.le_refl 0
      marker := iff_of_true rfl (by simp [State.fresh, State.reset])
      fault_there := iff_of_false (by simp [State.fresh, State.reset]) (by simp [State.fresh, State.reset])
      inQ_words := fun _ hv => (List.not_mem_nil hv).elim
      outQ_words := fun _ hv => (List.not_mem_nil hv).elim }

/-- Settles O52: the reset state is a constructed one. -/
theorem resetMeetsInvariant : Obligations.ResetMeetsInvariant :=
  constructedInstanceMeetsInvariant _ _ _ _ _ reset_constructed

end Sys2Proof.Machine
end

section
/-! The family of runs and of the host's views: what a RUN returns (41_execution_cycle.md R153, R159; 60_exceptions.md
R229), what a construction checks (70_reset_and_hazards.md R260), the diagnostic window (60_exceptions.md R230) and
the system of instances (R238). -/

namespace Sys2Proof.Machine

/-! ### The loop of a RUN -/

theorem runLoop_not_running {s : State} (hs : s.status ≠ .running) (n : Nat) : runLoop n s = some (s.status, s) := by
  cases n <;> simp [runLoop, hs]

theorem runLoop_zero_running {s : State} (hs : s.status = .running) : runLoop 0 s = none := by
  simp [runLoop, hs]

theorem runLoop_succ_running {s s' : State} (hs : s.status = .running) (h : engineStep s = .next s') (n : Nat) :
    runLoop (n + 1) s = runLoop n s' := by
  simp [runLoop, hs, h]

theorem engineStep_next {s : State} (hs : s.status = .running) : ∃ s', engineStep s = .next s' := by
  rw [← step_running hs]
  exact runningStateAlwaysSteps s hs

/-! ### How a run ends -/

/-- A run that found the output queue q has ended in s: late with one value pushed, or otherwise with none
(41_execution_cycle.md R153). -/
def State.EndsRun (q : List Int) (s : State) : Prop :=
  (s.status = .suspended ∧ s.yieldMarker = .late ∧ ∃ v, s.outQ = q ++ [v]) ∨
  (s.outQ = q ∧ ((s.status = .suspended ∧ s.yieldMarker = .early) ∨ s.status = .halted ∨ s.status = .faulted))

theorem State.EndsRun.not_running {q : List Int} {s : State} (h : s.EndsRun q) : s.status ≠ .running := by
  intro hs
  rcases h with ⟨h, -⟩ | ⟨-, ⟨h, -⟩ | h | h⟩ <;> cases hs.symm.trans h

/-- A step of a run goes on with the output queue as it was, or ends the run. -/
theorem engineStep_runs_or_ends {s t : State} (hs : s.status = .running) (h : engineStep s = .next t) :
    (t.status = .running ∧ t.outQ = s.outQ) ∨ t.EndsRun s.outQ := by
  rcases step_running_cases hs ((step_running hs).trans h) with ⟨tr, rfl⟩ | ⟨i, -, -, rfl⟩ | ⟨i, -, -, he⟩
  · exact .inr (.inr ⟨rfl, .inr (.inr rfl)⟩)
  · exact .inr (.inr ⟨rfl, .inl ⟨rfl, rfl⟩⟩)
  · cases he with
    | fault tr => exact .inr (.inr ⟨rfl, .inr (.inr rfl)⟩)
    | pushed p0 v => exact .inr (.inl ⟨rfl, rfl, v, rfl⟩)
    | halted => exact .inr (.inr ⟨rfl, .inr (.inl rfl)⟩)
    | store | popped | jumped | passed | rebased => exact .inl ⟨hs, rfl⟩

theorem runLoop_ends {n : Nat} {s t : State} {st : Status} (hs : s.status = .running)
    (h : runLoop n s = some (st, t)) : t.status = st ∧ t.EndsRun s.outQ := by
  induction n generalizing s with
  | zero =>
    rw [runLoop_zero_running hs] at h
    cases h
  | succ n ih =>
    obtain ⟨s', he⟩ := engineStep_next hs
    rw [runLoop_succ_running hs he] at h
    rcases engineStep_runs_or_ends hs he with ⟨hs', hq⟩ | hend
    · exact hq ▸ ih hs' h
    · rw [runLoop_not_running hend.not_running] at h
      cases h
      exact ⟨rfl, hend⟩

/-- The entry of a RUN of a live state leaves it Running, with the RUN's output queue. -/
theorem State.runEntry_live {c : RunCall} {s t : State} (hs : s.status = .running ∨ s.status = .suspended)
    (h : s.runEntry c = .next t) : t.status = .running ∧ t.outQ = c.outQ.resolve s.outQ := by
  rcases State.runEntry_next h with ⟨hended, -⟩ | ⟨-, ⟨hrun, rfl⟩ | ⟨-, -, rfl⟩ | ⟨-, -, rfl⟩⟩
  · rcases hs with hs | hs <;> rcases hended with h' | h' <;> cases hs.symm.trans h'
  · exact ⟨hrun, rfl⟩
  · exact ⟨rfl, rfl⟩
  · exact ⟨rfl, rfl⟩

/-- A RUN that returns has entered, and then its loop has returned. -/
theorem runFor_some_iff {n : Nat} {c : RunCall} {s : State} {r : Status × State} :
    runFor n c s = some r ↔ ∃ s', s.runEntry c = .next s' ∧ runLoop n s' = some r := by
  unfold runFor
  cases s.runEntry c <;> simp

/-- Settles O54: by induction over the loop, no step before the last pushes. -/
theorem runPushesAtMostOneValue : Obligations.RunPushesAtMostOneValue := by
  intro n c s t st hs h
  obtain ⟨s', hentry, hloop⟩ := runFor_some_iff.1 h
  obtain ⟨hrun, hq⟩ := State.runEntry_live hs hentry
  obtain ⟨rfl, hend⟩ := runLoop_ends hrun hloop
  exact ⟨rfl, hq ▸ hend⟩

/-! ### What a RUN returns -/

/-- Looking further does not change what the loop returns. -/
theorem runLoop_mono {n m : Nat} {s : State} {r : Status × State} (h : runLoop n s = some r) (hnm : n ≤ m) :
    runLoop m s = some r := by
  induction n generalizing s m with
  | zero =>
    by_cases hs : s.status = .running
    · rw [runLoop_zero_running hs] at h
      cases h
    · rw [runLoop_not_running hs] at h ⊢
      exact h
  | succ n ih =>
    obtain ⟨m, rfl⟩ : ∃ k, m = k + 1 := ⟨m - 1, by omega⟩
    by_cases hs : s.status = .running
    · obtain ⟨s', he⟩ := engineStep_next hs
      rw [runLoop_succ_running hs he] at h ⊢
      exact ih h (by omega)
    · rw [runLoop_not_running hs] at h ⊢
      exact h

theorem runFor_mono {n m : Nat} {c : RunCall} {s : State} {r : Status × State} (h : runFor n c s = some r)
    (hnm : n ≤ m) : runFor m c s = some r := by
  obtain ⟨s', hentry, hloop⟩ := runFor_some_iff.1 h
  exact runFor_some_iff.2 ⟨s', hentry, runLoop_mono hloop hnm⟩

/-- Settles O55: both runs are the one that looks further. -/
theorem runResultIsUnique : Obligations.RunResultIsUnique := by
  rintro c s t1 t2 st1 st2 ⟨n1, h1⟩ ⟨n2, h2⟩
  have heq : some (st1, t1) = some (st2, t2) :=
    (runFor_mono h1 (Nat.le_max_left n1 n2)).symm.trans (runFor_mono h2 (Nat.le_max_right n1 n2))
  cases heq
  exact ⟨rfl, rfl⟩

/-- A RUN of a Halted or Faulted state has no entry action (41_execution_cycle.md R143, R144). -/
theorem State.runEntry_ended {s : State} (hs : s.status = .halted ∨ s.status = .faulted) (c : RunCall) :
    s.runEntry c = .next s := by
  rcases hs with hs | hs <;> simp [State.runEntry, hs]

/-- Settles O47: the entry of a RUN answers the state itself, and its loop takes no step. -/
theorem terminalStatusIsPermanent : Obligations.TerminalStatusIsPermanent := by
  intro s hs
  have hnot : s.status ≠ .running := by rcases hs with hs | hs <;> simp [hs]
  refine ⟨?_, fun n c => runFor_some_iff.2 ⟨s, State.runEntry_ended hs c, runLoop_not_running hnot n⟩⟩
  have hwait : s.awaitRun = .next (s.setCalls s.calls.tail) := by
    rcases s.awaitRun_cases with ⟨hcalls, e⟩ | ⟨c, cs, hcalls, e⟩
    · rw [e, hcalls, List.tail_nil, ← hcalls]
      rfl
    · rw [e, hcalls]
      exact State.runEntry_ended (s := s.setCalls cs) hs c
  exact (step_not_running hnot).trans hwait

/-! ### The host's views -/

/-- Settles O10: `State.construct_ok_iff`, with the cells of `constructedMemoryHoldsProgramThenZeros`. -/
theorem constructionChecksAndResetValues : Obligations.ConstructionChecksAndResetValues := by
  intro cfg program id policy
  refine ⟨⟨fun ⟨s, hs⟩ => ?_, fun ⟨hcap, hlen, hwords, hwidth⟩ => ?_⟩,
    fun s hs => ⟨fun a h0 hcap => ?_, ?_⟩⟩
  · obtain ⟨hvalid, hlen, hwords, -⟩ := State.construct_ok_iff.1 hs
    obtain ⟨hcap, hwidth⟩ := cfg.valid_iff.1 hvalid
    exact ⟨hcap, hlen, hwords, hwidth⟩
  · exact ⟨_, State.construct_ok_iff.2 ⟨cfg.valid_iff.2 ⟨hcap, hwidth⟩, hlen, hwords, rfl⟩⟩
  · rw [constructedMemoryHoldsProgramThenZeros cfg program id policy s hs, if_pos ⟨h0, hcap⟩]
  · obtain ⟨-, -, -, rfl⟩ := State.construct_ok_iff.1 hs
    exact ⟨rfl, rfl, rfl, rfl, rfl, rfl, rfl, rfl, rfl, rfl, rfl, rfl⟩

/-- The diagnostic window of a Faulted state with a record (60_exceptions.md R230). -/
theorem State.diagWindow_of_faulted {s : State} {r : FaultRecord} (hs : s.status = .faulted) (hr : s.fault = some r) :
    s.diagWindow =
      if min ((s.cfg.capacity : Int) - 1) (r.pc + 7) < max 0 (r.pc - 7) then none
      else some (max 0 (r.pc - 7), min ((s.cfg.capacity : Int) - 1) (r.pc + 7)) := by
  simp [State.diagWindow, State.faultPort, State.diagBounds, hs, hr]

theorem State.diagCells_of_window {s : State} {lo hi : Int} (h : s.diagWindow = some (lo, hi)) :
    s.diagCells = (List.range (hi - lo + 1).toNat).map fun (k : Nat) => s.mem.read (lo.toNat + k) := by
  simp [State.diagCells, h]

theorem State.inspect_of_mapped {s : State} {a : Int} (h : s.mapped a = true) :
    s.inspect a = some (s.mem.read a.toNat) := by
  simp [State.inspect, h]

/-- Settles O57: the clamped bounds written out, and cell k of the slice at k past the lower one. -/
theorem diagnosticWindowAroundFault : Obligations.DiagnosticWindowAroundFault := by
  intro s r hs hr
  have hwindow := State.diagWindow_of_faulted hs hr
  refine ⟨⟨fun hnone a h0 hcap => ?_, fun hfar => ?_⟩, fun lo hi hsome => ?_⟩
  · rw [hwindow] at hnone
    split_ifs at hnone
    omega
  · have hnear := hfar (max 0 (r.pc - 7))
    rw [hwindow, if_pos (by omega)]
  · have hcells := State.diagCells_of_window hsome
    rw [hwindow] at hsome
    split_ifs at hsome with hempty
    obtain ⟨rfl, rfl⟩ := Prod.mk.inj (Option.some.inj hsome)
    refine ⟨fun a => by omega, ?_, fun k hk => ?_⟩
    · rw [hcells, List.length_map, List.length_range]
      omega
    · have hmapped : s.mapped (max 0 (r.pc - 7) + k) = true := (s.mapped_iff _).2 (by omega)
      have hlt : k < (min ((s.cfg.capacity : Int) - 1) (r.pc + 7) - max 0 (r.pc - 7) + 1).toNat := by omega
      have haddr : (max 0 (r.pc - 7) + k).toNat = (max 0 (r.pc - 7)).toNat + k := by omega
      rw [State.inspect_of_mapped hmapped, haddr, hcells, List.getElem?_map, List.getElem?_range hlt]
      rfl

/-- Settles O58: a run puts one new state in the list of states and sets entries of the queues. -/
theorem systemRunTouchesOneInstance : Obligations.SystemRunTouchesOneInstance := by
  intro y z h
  cases h with
  | run k i o s s' st hthere hin hout hlive hreturns =>
    refine ⟨?_, List.length_set, k, fun j hj => List.getElem?_set_ne hj.symm⟩
    simp only [System.settleQueues, List.length_set]
  | idle k s hthere hended => exact ⟨rfl, rfl, 0, fun _ _ => rfl⟩

end Sys2Proof.Machine
end
